-- ==== Sys2Proof/Word.lean ====
section
/-! DEFINITION. The three words of the engine: a byte of the byte view, a lane of the lane view, and a
64-bit command or register word (spec/00_scope.md R6, R10). -/

namespace Sys2Proof

/-- A u8: a byte of the state's byte view, of a payload or of the output stream (R10, R21). -/
abbrev Byte := BitVec 8

/-- A u64 lane of the state (R6: W = 64; R22). -/
abbrev Lane := BitVec 64

/-- A 64-bit command word or register image (R6). -/
abbrev Word := BitVec 64

end Sys2Proof
end

