-- ==== Sys2Proof/Config.lean ====
section
/-! DEFINITION. The engine's fixed parameters (spec/00_scope.md R6, R7). The spec leaves no value of this
machine open, so there is no free value here. -/

namespace Sys2Proof.Config

/-- MAX_OUT_BYTES of R6, read everywhere through this name as R7 allows (the parameter `maxOutBytes`). -/
def maxOutBytes : Nat := 65535

/-- MAX_CHUNK of R6: the most bytes one ABSORB takes or one SQUEEZE gives (the 16-bit field N, R87). -/
def maxChunk : Nat := 65535

end Sys2Proof.Config
end

