-- ==== Sys2Proof/Syntax.lean ====
section
/-! DEFINITION. The commands of the engine as data: one constructor of `Instr` per row of
spec/opcode_table.json (spec/30_encoding.md R81), with the operands of R82 to R88. -/

namespace Sys2Proof

/-- The domain code DOM of a parameter set (R84, R142). Codes 2 and 3 are illegal encodings. -/
inductive Domain where
  | sha3
  | shake
  deriving DecidableEq, Repr

/-- The six standard variants, in the order of their codes 0 to 5 (R83, R140). -/
inductive Variant where
  | sha3_224
  | sha3_256
  | sha3_384
  | sha3_512
  | shake128
  | shake256
  deriving DecidableEq, Repr

/-- The eight commands (R81). The operands are the fields of the command word (R89: unsigned, unscaled);
ABSORB carries its payload, whose length is the field N (R80, R87). -/
inductive Instr where
  /-- CFG_VARIANT v (format V, R83, R141). -/
  | cfgVariant (v : Variant)
  /-- CFG_EXPLICIT c d h (format X, R84, R144): capacity bits, domain, output bits. -/
  | cfgExplicit (cap : BitVec 11) (dom : Domain) (hsize : BitVec 20)
  /-- SET_OUTLEN b (format L, R85, R147). -/
  | setOutlen (bits : BitVec 20)
  /-- INIT (format N, R82, R170). -/
  | init
  /-- ABSORB with its payload; N is the payload's length (format C, R87, R173). -/
  | absorb (payload : List Byte)
  /-- FINALIZE t v (format T, R88, R183): the number of trailing message bits and the byte holding them. -/
  | finalize (tbits : BitVec 3) (tbyte : Byte)
  /-- SQUEEZE N (format C, R87, R205). -/
  | squeeze (n : BitVec 16)
  /-- PERMUTE (format N, R82, R125). -/
  | permute
  deriving DecidableEq, Repr

end Sys2Proof
end

