-- ==== Sys2Proof/WellFormed.lean ====
section
/-! DEFINITION. Which terms of `Instr` are commands of the engine. Every operand but ABSORB's payload is
bounded by its type; the payload must fit the 16-bit field N (spec/30_encoding.md R87). -/

namespace Sys2Proof

/-- The instruction can be encoded: an ABSORB payload has at most MAX_CHUNK bytes (R6, R87). -/
def Instr.wellFormed : Instr → Bool
  | .cfgVariant _ => true
  | .cfgExplicit _ _ _ => true
  | .setOutlen _ => true
  | .init => true
  | .absorb payload => Nat.ble payload.length Config.maxChunk
  | .finalize _ _ => true
  | .squeeze _ => true
  | .permute => true

end Sys2Proof
end

