-- ==== Sys2Proof/Decode.lean ====
section
/-! DEFINITION. The decoder, total over all command words and payloads (spec/30_encoding.md R90), and the
encoder written from the same formats (R82 to R88, R94). -/

namespace Sys2Proof

/-! ## Fields, codes and the opcode table -/

/-- `cmd[hi:lo]` of R10 and R89: bits hi down to lo, inclusive. -/
def field (cmd : Word) (hi lo : Nat) : BitVec (hi - lo + 1) := cmd.extractLsb hi lo

/-- The opcodes of R81. -/
inductive Opcode where
  | cfgVariant
  | cfgExplicit
  | setOutlen
  | init
  | absorb
  | finalize
  | squeeze
  | permute
  deriving DecidableEq, Repr

/-- OPC of a command (R81). -/
def Opcode.code : Opcode → BitVec 8
  | .cfgVariant => 0x01
  | .cfgExplicit => 0x02
  | .setOutlen => 0x03
  | .init => 0x04
  | .absorb => 0x05
  | .finalize => 0x06
  | .squeeze => 0x07
  | .permute => 0x08

/-- OPC selects exactly one command or is illegal (R81). -/
def opcodeOf (opc : BitVec 8) : Option Opcode :=
  match opc.toNat with
  | 1 => some .cfgVariant
  | 2 => some .cfgExplicit
  | 3 => some .setOutlen
  | 4 => some .init
  | 5 => some .absorb
  | 6 => some .finalize
  | 7 => some .squeeze
  | 8 => some .permute
  | _ => none

/-- The mask column of R92: the bits of a command word that are fixed. -/
def Opcode.mask : Opcode → Word
  | .cfgVariant => 0xFFFFFFFFFFFFF0FF
  | .cfgExplicit => 0xFFFFF00000C800FF
  | .setOutlen => 0xFFFFFFFFF00000FF
  | .init => 0xFFFFFFFFFFFFFFFF
  | .absorb => 0xFFFFFFFFFF0000FF
  | .finalize => 0xFFFFFFFFFF00F8FF
  | .squeeze => 0xFFFFFFFFFF0000FF
  | .permute => 0xFFFFFFFFFFFFFFFF

/-- RESERVED_MASK of R90: the fixed bits other than OPC, all of which must be 0. -/
def Opcode.reservedMask (op : Opcode) : Word := op.mask &&& ~~~0xFF#64

/-- The variant codes of R83 and R140. -/
def Variant.code : Variant → BitVec 4
  | .sha3_224 => 0
  | .sha3_256 => 1
  | .sha3_384 => 2
  | .sha3_512 => 3
  | .shake128 => 4
  | .shake256 => 5

/-- The variant of a VARIANT field; 6 to 15 are illegal (R83, R91). -/
def variantOf (code : BitVec 4) : Option Variant :=
  match code.toNat with
  | 0 => some .sha3_224
  | 1 => some .sha3_256
  | 2 => some .sha3_384
  | 3 => some .sha3_512
  | 4 => some .shake128
  | 5 => some .shake256
  | _ => none

/-- The domain codes of R84 and R142. -/
def Domain.code : Domain → BitVec 2
  | .sha3 => 0
  | .shake => 1

/-- The domain of a DOM field; 2 and 3 are illegal (R84, R91). -/
def domainOf (code : BitVec 2) : Option Domain :=
  match code.toNat with
  | 0 => some .sha3
  | 1 => some .shake
  | _ => none

/-! ## Decoding -/

/-- What Decode returns (R90): an illegal encoding, a payload of the wrong length, or a command. -/
inductive Decoded where
  | illegal
  | length
  | command (i : Instr)
  deriving DecidableEq, Repr

/-- The payload check of every command but ABSORB: the payload must be empty (R90). -/
def withoutPayload (payload : List Byte) (i : Instr) : Decoded :=
  match payload with
  | [] => .command i
  | _ :: _ => .length

/-- `payload.length = n`, counting no further than both go. -/
def hasLength : List Byte → Nat → Bool
  | [], 0 => true
  | [], _ + 1 => false
  | _ :: _, 0 => false
  | _ :: rest, n + 1 => hasLength rest n

/-- The value checks, the payload check and the fields of a word whose reserved bits are 0 (R90). -/
def decodeFields (op : Opcode) (cmd : Word) (payload : List Byte) : Decoded :=
  match op with
  | .cfgVariant =>
    match variantOf (field cmd 11 8) with
    | none => .illegal
    | some v => withoutPayload payload (.cfgVariant v)
  | .cfgExplicit =>
    match domainOf (field cmd 21 20) with
    | none => .illegal
    | some d => withoutPayload payload (.cfgExplicit (field cmd 18 8) d (field cmd 43 24))
  | .setOutlen => withoutPayload payload (.setOutlen (field cmd 27 8))
  | .init => withoutPayload payload .init
  | .absorb => if hasLength payload (field cmd 23 8).toNat then .command (.absorb payload) else .length
  | .finalize => withoutPayload payload (.finalize (field cmd 10 8) (field cmd 23 16))
  | .squeeze => withoutPayload payload (.squeeze (field cmd 23 8))
  | .permute => withoutPayload payload .permute

/-- Decode of R90, in its order: opcode, reserved bits, field values, payload length. -/
def decode (cmd : Word) (payload : List Byte) : Decoded :=
  match opcodeOf (field cmd 7 0) with
  | none => .illegal
  | some op => if cmd &&& op.reservedMask = 0 then decodeFields op cmd payload else .illegal

/-! ## Encoding -/

/-- The command word of an instruction: OPC and the fields at their places (R94). -/
def encodeWord : Instr → Word
  | .cfgVariant v => 0x01 ||| v.code.setWidth 64 <<< 8
  | .cfgExplicit cap dom hsize =>
    0x02 ||| cap.setWidth 64 <<< 8 ||| dom.code.setWidth 64 <<< 20 ||| hsize.setWidth 64 <<< 24
  | .setOutlen bits => 0x03 ||| bits.setWidth 64 <<< 8
  | .init => 0x04
  | .absorb payload => 0x05 ||| (BitVec.ofNat 16 payload.length).setWidth 64 <<< 8
  | .finalize tbits tbyte => 0x06 ||| tbits.setWidth 64 <<< 8 ||| tbyte.setWidth 64 <<< 16
  | .squeeze n => 0x07 ||| n.setWidth 64 <<< 8
  | .permute => 0x08

/-- The payload of an instruction: only ABSORB has one (R80, R94). -/
def encodePayload : Instr → List Byte
  | .absorb payload => payload
  | _ => []

/-- The opcode of an instruction (R81). -/
def Instr.opcode : Instr → Opcode
  | .cfgVariant _ => .cfgVariant
  | .cfgExplicit _ _ _ => .cfgExplicit
  | .setOutlen _ => .setOutlen
  | .init => .init
  | .absorb _ => .absorb
  | .finalize _ _ => .finalize
  | .squeeze _ => .squeeze
  | .permute => .permute

/-- A command word carried as bytes: byte j is `cmd[8j+7:8j]` (spec/20_memory.md R62). -/
def transportBytes (cmd : Word) : List Byte :=
  (List.range 8).map fun j => cmd.extractLsb' (8 * j) 8

/-- The command word of eight transport bytes, least-significant byte first (R62). -/
def wordOfTransport : List Byte → Option Word
  | [b0, b1, b2, b3, b4, b5, b6, b7] => some (b7 ++ b6 ++ b5 ++ b4 ++ b3 ++ b2 ++ b1 ++ b0)
  | _ => none

/-! ## The host's view of one opcode-table row -/

/-- The command word of `nbits` table bits `w`, the bits above them 0; none when it would not fit 64 bits. -/
def tableWord (nbits w : Nat) : Option Word :=
  if w % 2 ^ nbits < 2 ^ 64 then some (BitVec.ofNat 64 (w % 2 ^ nbits)) else none

/-- The payload that goes with a table word: N zero bytes for ABSORB, none for any other word (R80). -/
def tablePayload (cmd : Word) : List Byte :=
  match opcodeOf (field cmd 7 0) with
  | some .absorb => List.replicate (field cmd 23 8).toNat 0
  | _ => []

/-- The instruction this decoder reads from a table word; none where the encoding is illegal. -/
def decodeTableWord (nbits w : Nat) : Option Instr :=
  match tableWord nbits w with
  | none => none
  | some cmd =>
    match decode cmd (tablePayload cmd) with
    | .command i => some i
    | .illegal => none
    | .length => none

end Sys2Proof
end

