-- ==== Sys2Proof/Machine/State.lean ====
section
/-! DEFINITION. The architectural state of the engine (spec/10_state.md), the host's transactions and the
engine's responses (spec/20_memory.md R62 to R64, spec/70_reset_and_hazards.md R260), and the reasons a
step can stop. -/

namespace Sys2Proof.Machine

/-- PHASE (R28). A 3-bit register whose codes 5 to 7 are never held. -/
inductive Phase where
  | unconfigured
  | configured
  | absorbing
  | squeezing
  | done
  deriving DecidableEq, Repr

/-- The PHASE codes of R28. -/
def Phase.code : Phase → BitVec 3
  | .unconfigured => 0
  | .configured => 1
  | .absorbing => 2
  | .squeezing => 3
  | .done => 4

/-- The error codes a command can fail with (spec/60_exceptions.md R220). -/
inductive ErrCode where
  | illegal
  | config
  | notXof
  | misuse
  | length
  deriving DecidableEq, Repr

/-- The codes of R220; 0 is OK, and 6 to 15 are never written. -/
def ErrCode.code : ErrCode → BitVec 4
  | .illegal => 1
  | .config => 2
  | .notXof => 3
  | .misuse => 4
  | .length => 5

/-- What the host may send (R260): a command transaction (R62), a register read at a byte address (R63),
or a hardware reset (R250). -/
inductive HostMove where
  | command (cmd : Word) (payload : List Byte)
  | read (addr : Nat)
  | reset
  deriving DecidableEq, Repr

/-- What the engine answers: `(status, result, out)` to a command (R64), a u64 to a read (R63). -/
inductive Response where
  | command (status result : Word) (out : List Byte)
  | read (data : Word)
  deriving DecidableEq, Repr

/-- The state array S: `S.byte[0..199]` (R20, R21). The lanes are computed from it (R22, R257: one storage). -/
abbrev Sponge := Vector Byte 200

/-- Why the machine stops. Neither reason can arise while the invariants of R42 hold, which every step
keeps from reset on; both are raised only in states that no run of the engine reaches. Safe: the model
stops where the spec's pseudocode has no value. -/
inductive Fault where
  /-- A byte `S.byte[addr]` with `addr ≥ 200`, which the spec says does not exist (R20, R60). Raised by ABSORB,
  FINALIZE and SQUEEZE when ABS_OFF, SQZ_POS or RATE_BITS is outside the range R31 and R42 give. Safe. -/
  | noStateByte (addr : Nat)
  /-- RATE_BITS is 0 at FINALIZE, where R186 divides by it. Raised by FINALIZE when the parameter set is not
  one R31 allows. Safe. -/
  | rateZero
  deriving DecidableEq, Repr

/-- Why the model gives an instruction no meaning. -/
inductive Refusal where
  /-- An instruction whose meaning has not been written; raised only by an arm of `exec`. Safe. -/
  | notModelled (mnemonic : String)
  deriving DecidableEq, Repr

/-- The engine's state. The registers have the widths of R28 to R37; the engine has no general registers,
no program counter and no condition codes (R25 to R27). The last three fields are the host's side of
the transaction interface (R260), held as data so that a step can take a transaction and answer it. -/
structure State where
  /-- S, the state array (R20). -/
  sponge : Sponge
  /-- PHASE (R28). -/
  phase : Phase
  /-- ABS_OFF, the offset in the block of the next input byte (R29). -/
  absOff : BitVec 8
  /-- SQZ_POS, the offset in the block of the next output byte (R30). -/
  sqzPos : BitVec 8
  /-- CAPACITY in bits (R31). -/
  capacity : BitVec 11
  /-- RATE_BITS (R31). -/
  rateBits : BitVec 11
  /-- RATE_BYTES (R31). -/
  rateBytes : BitVec 8
  /-- HASH_SIZE, the output length in bits (R31). -/
  hashSize : BitVec 20
  /-- DOM, the domain code (R31). -/
  dom : BitVec 2
  /-- SUFFIX, the domain suffix bits, first bit lowest (R31, R142). -/
  suffix : BitVec 4
  /-- SUFFIX_LEN (R31, R142). -/
  suffixLen : BitVec 3
  /-- VARIANT: 0 to 5 standard, 7 explicit, 15 none (R31, R33). -/
  variant : BitVec 4
  /-- XOF: 1 iff the domain is SHAKE (R31). -/
  xof : BitVec 1
  /-- LAST_ERR (R37). -/
  lastErr : BitVec 4
  /-- ERR_SEEN, the sticky error mask (R37). -/
  errSeen : BitVec 8
  /-- RESULT (R36). -/
  result : Word
  /-- The output stream of the last command: the bytes it emitted, in order (R60 (4), R64). -/
  out : List Byte
  /-- The host's transactions that the engine has not taken yet, oldest first (R8, R73, R260). -/
  inbox : List HostMove
  /-- The responses the engine has given, oldest first (R64, R260). -/
  outbox : List Response
  deriving DecidableEq, Repr

/-- The state right after hardware reset: the table of R41. The three fields of the transaction interface
are empty (log entry 2). -/
def State.reset : State where
  sponge := Vector.replicate 200 0
  phase := .unconfigured
  absOff := 0
  sqzPos := 0
  capacity := 0
  rateBits := 0
  rateBytes := 0
  hashSize := 0
  dom := 0
  suffix := 0
  suffixLen := 0
  variant := 15
  xof := 0
  lastErr := 0
  errSeen := 0
  result := 0
  out := []
  inbox := []
  outbox := []

end Sys2Proof.Machine
end

