-- ==== Sys2Proof/Machine/Ops.lean ====
section
/-! DEFINITION. The shared operations: the byte and lane views of the state array (spec/10_state.md R20 to
R24), how a command ends (spec/60_exceptions.md R222, spec/10_state.md R36, R37), and hardware reset
(spec/70_reset_and_hazards.md R250). -/

namespace Sys2Proof.Machine

/-- `ceil_div` of R11. -/
def ceilDiv (a b : Nat) : Nat := (a + b - 1) / b

/-- A computation over S that may touch a byte that does not exist. -/
abbrev Run (α : Type) := Except Fault α

/-! ## The byte view -/

/-- S all zero (R41, R170). -/
def Sponge.zero : Sponge := Vector.replicate 200 0

/-- Read `S.byte[i]` (R12, R21). -/
def byteAt (S : Sponge) (i : Nat) : Run Byte :=
  if h : i < 200 then .ok S[i] else .error (.noStateByte i)

/-- `S.byte[i] <- S.byte[i] ^ b`, the only way input reaches S (R24, R174, R186). -/
def xorByte (S : Sponge) (i : Nat) (b : Byte) : Run Sponge :=
  if h : i < 200 then .ok (S.set i (S[i] ^^^ b)) else .error (.noStateByte i)

/-! ## The lane view -/

/-- The 25 lanes, `lane[x + 5y]` being `A[x,y]` (R22, R23). -/
abbrev Lanes := Vector Lane 25

/-- `S.lane[k]`: bytes `8k … 8k+7`, least-significant byte first (R22, R61). -/
def lane (S : Sponge) (k : Fin 25) : Lane :=
  S[8 * k.val + 7] ++ S[8 * k.val + 6] ++ S[8 * k.val + 5] ++ S[8 * k.val + 4] ++
    S[8 * k.val + 3] ++ S[8 * k.val + 2] ++ S[8 * k.val + 1] ++ S[8 * k.val]

/-- The lane view of S (R22). -/
def lanesOf (S : Sponge) : Lanes := Vector.ofFn fun k => lane S k

/-- Byte j of a lane value, `v[8j+7:8j]` (R22). -/
def laneByte (v : Lane) (j : Nat) : Byte := v.extractLsb' (8 * j) 8

/-- The bytes of a lane view: byte i is byte `i mod 8` of lane `i div 8` (R22). -/
def bytesOf (A : Lanes) : Sponge :=
  Vector.ofFn fun i => laneByte (A[i.val / 8]'(by have := i.isLt; omega)) (i.val % 8)

/-- `S.lane[k] <- v`: the write of R22. -/
def setLane (S : Sponge) (k : Fin 25) (v : Lane) : Sponge :=
  bytesOf ((lanesOf S).set k.val v)

/-! ## How a command ends -/

/-- Fail closed (R222): LAST_ERR, ERR_SEEN and RESULT are written, no output byte is emitted, and nothing else
changes. This is the engine's whole error entry: it has no trap, saves nothing and runs no handler (R228). -/
def failClosed (e : ErrCode) (s : State) : State :=
  { s with
    lastErr := e.code
    errSeen := s.errSeen ||| 1#8 <<< e.code.toNat
    result := 0
    out := [] }

/-- A command succeeds: LAST_ERR becomes 0, RESULT and the output stream are the command's (R36, R37, R64). -/
def complete (result : Word) (out : List Byte) (s : State) : State :=
  { s with lastErr := 0, result := result, out := out }

/-- The outcome of a command that fails with code e (R222). There is nothing to return from (R229). -/
def failed (e : ErrCode) (s : State) : Host.Outcome State Fault Refusal := .next (failClosed e s)

/-- Hardware reset (R250): every piece of the engine's state takes its reset value. The host's pending moves and
the answers it has are the host's, not the engine's, and stay (log entry 2). -/
def hardwareReset (s : State) : State :=
  { State.reset with inbox := s.inbox, outbox := s.outbox }

end Sys2Proof.Machine
end

