-- ==== Sys2Proof/Machine/Operands.lean ====
section
/-! DEFINITION. The padding_rule_encoder: what a CFG_* command loads (spec/41_configuration.md R140, R142), and
the bit positions of a message tail (spec/42_absorb.md R185, R186). -/

namespace Sys2Proof.Machine

/-! ## Parameter sets -/

/-- CAPACITY of a standard variant (R140). -/
def variantCapacity : Variant → BitVec 11
  | .sha3_224 => 448
  | .sha3_256 => 512
  | .sha3_384 => 768
  | .sha3_512 => 1024
  | .shake128 => 256
  | .shake256 => 512

/-- The default HASH_SIZE of a standard variant (R140). -/
def variantHashSize : Variant → BitVec 20
  | .sha3_224 => 224
  | .sha3_256 => 256
  | .sha3_384 => 384
  | .sha3_512 => 512
  | .shake128 => 128
  | .shake256 => 256

/-- The domain of a standard variant (R140). -/
def variantDomain : Variant → Domain
  | .sha3_224 => .sha3
  | .sha3_256 => .sha3
  | .sha3_384 => .sha3
  | .sha3_512 => .sha3
  | .shake128 => .shake
  | .shake256 => .shake

/-- SUFFIX of a domain, first bit lowest (R142). -/
def domainSuffix : Domain → BitVec 4
  | .sha3 => 0b0010
  | .shake => 0b1111

/-- SUFFIX_LEN of a domain; the first pad bit is not counted (R142, spec/90_conflicts.md C2). -/
def domainSuffixLen : Domain → BitVec 3
  | .sha3 => 2
  | .shake => 4

/-- XOF is 1 iff the domain is SHAKE (R31). -/
def domainXof : Domain → BitVec 1
  | .sha3 => 0
  | .shake => 1

/-- VARIANT of an explicit parameter set (R33, R144). -/
def explicitVariant : BitVec 4 := 7

/-- Load a parameter set and enter CONFIGURED (R141, R144); the rate is 1600 − CAPACITY (R6, R31). S, ABS_OFF and SQZ_POS are unchanged. -/
def loadParams (cap : BitVec 11) (hsize : BitVec 20) (dom : Domain) (variant : BitVec 4) (s : State) : State :=
  { s with
    capacity := cap
    rateBits := BitVec.ofNat 11 (1600 - cap.toNat)
    rateBytes := BitVec.ofNat 8 ((1600 - cap.toNat) / 8)
    hashSize := hsize
    dom := dom.code
    suffix := domainSuffix dom
    suffixLen := domainSuffixLen dom
    xof := domainXof dom
    variant := variant
    phase := .configured }

/-- The capacities CFG_EXPLICIT accepts: 0, 8, …, 1592 (R144, R145). -/
def capacityAccepted (cap : BitVec 11) : Bool := decide (cap.toNat < 1600 ∧ cap.toNat % 8 = 0)

/-- The output lengths CFG_EXPLICIT and SET_OUTLEN accept: 1 to 8 × MAX_OUT_BYTES (R86, R144, R147). -/
def outputLengthAccepted (bits : BitVec 20) : Bool :=
  decide (1 ≤ bits.toNat ∧ bits.toNat ≤ 8 * Config.maxOutBytes)

/-! ## Tail positions -/

/-- The positions `base + k` of the bits k < n that are set in v (R186). -/
def setBits {w : Nat} (v : BitVec w) (n base : Nat) : List Nat :=
  ((List.range n).filter fun k => v.getLsbD k).map fun k => base + k

/-- The tail length E in blocks of r bits: one if the suffix and both pad bits fit, else two (R186). -/
def tailBlocks (r L s : Nat) : Nat := if L + s + 2 ≤ r then 1 else 2

/-- The set Q of R186: message bits, suffix bits, first pad bit, last pad bit. `base` is 8·ABS_OFF, so the tail
starts at `L = base + t` (R185). -/
def tailPositions (r base t : Nat) (v : Byte) (suffix : BitVec 4) (s : Nat) : List Nat :=
  let L := base + t
  List.insert (tailBlocks r L s * r - 1) (List.insert (L + s) (setBits v t base ++ setBits suffix s L))

end Sys2Proof.Machine
end

