-- ==== Sys2Proof/Machine/Keccak.lean ====
section
/-! DEFINITION. The keccak-f[1600] permutation (spec/40_permutation.md R110 to R123) and PERMUTE (R125). Each
step mapping is a function of the lanes before it, so every read is of a value from before the step
began (R120). -/

namespace Sys2Proof.Machine

/-- ROTL64 of R11. -/
abbrev rotl64 (a : Lane) (n : Nat) : Lane := a.rotateLeft n

/-- `A[x,y]` with the column and the row taken mod 5 (R11, R23). -/
def laneXY (A : Lanes) (x y : Nat) : Lane := A[x % 5 + 5 * (y % 5)]

/-- The lanes whose `A[x,y]` is `f x y` (R23). -/
def lanesBy (f : Nat → Nat → Lane) : Lanes := Vector.ofFn fun k => f (k.val % 5) (k.val / 5)

/-! ## The step mappings -/

/-- The column parities `C[x]` (R112). -/
def parity (A : Lanes) : Vector Lane 5 :=
  Vector.ofFn fun x => laneXY A x 0 ^^^ laneXY A x 1 ^^^ laneXY A x 2 ^^^ laneXY A x 3 ^^^ laneXY A x 4

/-- `D[x] = C[(x − 1) mod 5] ^ ROTL64(C[(x + 1) mod 5], 1)` (R113). -/
def parityMix (C : Vector Lane 5) : Vector Lane 5 :=
  Vector.ofFn fun x =>
    C[(x.val + 4) % 5]'(Nat.mod_lt _ (by decide)) ^^^ rotl64 (C[(x.val + 1) % 5]'(Nat.mod_lt _ (by decide))) 1

/-- θ (R112, R113). -/
def theta (A : Lanes) : Lanes :=
  let D := parityMix (parity A)
  lanesBy fun x y => laneXY A x y ^^^ D[x % 5]'(Nat.mod_lt _ (by decide))

/-- The ρ rotation offsets by lane index (R114). -/
def rhoOffsets : Vector Nat 25 :=
  #v[0, 1, 62, 28, 27,
     36, 44, 6, 55, 20,
     3, 10, 43, 25, 39,
     41, 45, 15, 21, 8,
     18, 2, 61, 56, 14]

/-- ρ (R115). -/
def rho (A : Lanes) : Lanes := Vector.ofFn fun k => rotl64 A[k] rhoOffsets[k]

/-- π: `A'[x,y] = A[(x + 3y) mod 5, x]` (R116). -/
def pi (A : Lanes) : Lanes := lanesBy fun x y => laneXY A (x + 3 * y) x

/-- χ (R118). -/
def chi (A : Lanes) : Lanes :=
  lanesBy fun x y => laneXY A x y ^^^ (~~~(laneXY A (x + 1) y) &&& laneXY A (x + 2) y)

/-- The ι round constants RC[0..23] (R121). -/
def roundConstants : List Lane :=
  [0x0000000000000001, 0x0000000000008082, 0x800000000000808A, 0x8000000080008000,
   0x000000000000808B, 0x0000000080000001, 0x8000000080008081, 0x8000000000008009] ++
  [0x000000000000008A, 0x0000000000000088, 0x0000000080008009, 0x000000008000000A,
   0x000000008000808B, 0x800000000000008B, 0x8000000000008089, 0x8000000000008003] ++
  [0x8000000000008002, 0x8000000000000080, 0x000000000000800A, 0x800000008000000A,
   0x8000000080008081, 0x8000000000008080, 0x0000000080000001, 0x8000000080008008]

/-- ι with round constant rc: only `A[0,0]` changes (R119). -/
def iota (rc : Lane) (A : Lanes) : Lanes := A.set 0 (A[0] ^^^ rc)

/-! ## The permutation -/

/-- One round (R110). -/
def keccakRound (A : Lanes) (rc : Lane) : Lanes := iota rc (chi (pi (rho (theta A))))

/-- The 24 rounds on the lane view, round index 0 first (R110). -/
def keccakLanes (A : Lanes) : Lanes := roundConstants.foldl keccakRound A

/-- KeccakF(S) (R110): a pure function of the 1600-bit state, with no error outcome (R122). Irreducible, so that no
proof unfolds 24 rounds by accident. -/
@[irreducible] def keccakF (S : Sponge) : Sponge := bytesOf (keccakLanes (lanesOf S))

/-! ## The fused ρ and π of R117, and the generating rules of R123 -/

/-- PILN of R117: the destination of the lane carried at each step of the π cycle. -/
def fusedDestinations : List Nat :=
  [10, 7, 11, 17, 18, 3, 5, 16, 8, 21, 24, 4, 15, 23, 19, 13, 12, 2, 20, 14, 22, 9, 6, 1]

/-- ROTC of R117: the offset of the lane carried at each step. -/
def fusedOffsets : List Nat :=
  [1, 3, 6, 10, 15, 21, 28, 36, 45, 55, 2, 14, 27, 41, 56, 8, 25, 43, 62, 18, 39, 61, 20, 44]

/-- One step of the traversal of R117: the carried lane t is rotated into place j and the lane it overwrites
is carried on. -/
def fusedStep (At : Lanes × Lane) (j n : Nat) : Lanes × Lane :=
  (At.1.setIfInBounds j (rotl64 At.2 n), At.1[j]?.getD 0)

/-- The in-place traversal of R117, started with lane 1. It is another realisation of `pi (rho A)`. -/
def fusedRhoPi (A : Lanes) : Lanes :=
  ((fusedDestinations.zip fusedOffsets).foldl (fun At jn => fusedStep At jn.1 jn.2) (A, A[1])).1

/-- ROT_DEST of R117: the rotation offsets by final lane position. -/
def offsetsByDestination : Vector Nat 25 :=
  #v[0, 44, 43, 21, 14,
     28, 20, 3, 45, 61,
     1, 6, 25, 8, 18,
     27, 36, 10, 15, 56,
     62, 55, 39, 41, 2]

/-- The ρ generating rule of R123 from `(x, y)` at step t: the list of `(x + 5y, offset)`. -/
def rhoGenerate : Nat → Nat → Nat → Nat → List (Nat × Nat)
  | 0, _, _, _ => []
  | fuel + 1, t, x, y =>
    (x + 5 * y, (t + 1) * (t + 2) / 2 % 64) :: rhoGenerate fuel (t + 1) y ((2 * x + 3 * y) % 5)

/-- One step of the LFSR `x^8 + x^6 + x^5 + x^4 + 1` of R123, on its eight bits with the output bit lowest
(log entry 4). -/
def lfsrStep (r : BitVec 9) : BitVec 9 :=
  let shifted := r <<< 1
  if shifted.getLsbD 8 then (shifted ^^^ 0b101110001#9) else shifted

/-- `rc(t)` of R123. -/
def rcBit (t : Nat) : Bool := (Nat.iterate lfsrStep (t % 255) 1#9).getLsbD 0

/-- RC[ir] generated by R123: bit `2^j − 1` is `rc(j + 7·ir)` for j = 0 … 6, every other bit is 0. -/
def roundConstantOf (ir : Nat) : Lane :=
  (List.range 7).foldl (fun acc j => if rcBit (j + 7 * ir) then acc ||| 1#64 <<< (2 ^ j - 1) else acc) 0

/-! ## PERMUTE -/

/-- PERMUTE (R125): KeccakF on S in every phase. -/
def execPermute (s : State) : Host.Outcome State Fault Refusal :=
  .next (complete 0 [] { s with sponge := keccakF s.sponge })

end Sys2Proof.Machine
end

