-- ==== Sys2Proof/Machine/Squeeze.lean ====
section
/-! DEFINITION. The squeeze_block_generator (spec/43_squeeze.md R200 to R204) and SQUEEZE (R205). -/

namespace Sys2Proof.Machine

/-- S with one byte cursor into its block: ABS_OFF while absorbing (R29), SQZ_POS while squeezing (R30). -/
structure Cursor where
  sponge : Sponge
  pos : BitVec 8
  deriving DecidableEq, Repr

/-- Permute-on-demand: an exhausted block is permuted before a byte of it is wanted (R201). -/
def refill (rateBytes : BitVec 8) (c : Cursor) : Cursor :=
  if c.pos = rateBytes then ⟨keccakF c.sponge, 0⟩ else c

/-- One turn of the loop of R201: the next output byte and the cursor after it. -/
def squeezeByte (rateBytes : BitVec 8) (c : Cursor) : Run (Byte × Cursor) :=
  let c' := refill rateBytes c
  match byteAt c'.sponge c'.pos.toNat with
  | .ok b => .ok (b, { c' with pos := c'.pos + 1 })
  | .error f => .error f

/-- SqueezeBytes(n) of R201: n output bytes, first byte first, and the cursor after them. -/
def squeezeBytes (rateBytes : BitVec 8) : Nat → Cursor → Run (List Byte × Cursor)
  | 0, c => .ok ([], c)
  | n + 1, c =>
    match squeezeByte rateBytes c with
    | .error f => .error f
    | .ok (b, c1) =>
      match squeezeBytes rateBytes n c1 with
      | .error f => .error f
      | .ok (bs, c2) => .ok (b :: bs, c2)

/-- Output-length masking (R203): when h is not a multiple of 8, the last of the `ceil_div(h, 8)` bytes keeps its low
`h mod 8` bits. S is not masked. -/
def maskOutput (h : Nat) (o : List Byte) : List Byte :=
  if h % 8 = 0 then o else o.modify (o.length - 1) fun b => b &&& BitVec.ofNat 8 (2 ^ (h % 8) - 1)

/-- SQUEEZE N (R205): legal in SQUEEZING only; emits N bytes, never masked. -/
def execSqueeze (n : BitVec 16) (s : State) : Host.Outcome State Fault Refusal :=
  if s.phase = .squeezing then
    match squeezeBytes s.rateBytes n.toNat ⟨s.sponge, s.sqzPos⟩ with
    | .error f => .fault f
    | .ok (o, c) => .next (complete (n.setWidth 64) o { s with sponge := c.sponge, sqzPos := c.pos })
  else failed .misuse s

end Sys2Proof.Machine
end

