-- ==== Sys2Proof/Machine/Absorb.lean ====
section
/-! DEFINITION. The absorb_buffer_with_padding_fsm and lane_xor_inject (spec/42_absorb.md): INIT (R170), ABSORB
(R173, R174), lane injection (R177, R178), the padding (R185 to R188) and FINALIZE (R183). -/

namespace Sys2Proof.Machine

/-! ## INIT -/

/-- INIT (R170): needs a parameter set; starts a session on an all-zero state. -/
def execInit (s : State) : Host.Outcome State Fault Refusal :=
  if s.phase = .unconfigured then failed .misuse s
  else
    .next (complete 0 []
      { s with sponge := Sponge.zero, absOff := 0, sqzPos := 0, phase := .absorbing })

/-! ## ABSORB -/

/-- AbsorbByte(b) of R174: XOR b in at the offset, and permute as soon as the block is full. -/
def absorbByte (rateBytes : BitVec 8) (c : Cursor) (b : Byte) : Run Cursor :=
  match xorByte c.sponge c.pos.toNat b with
  | .error f => .error f
  | .ok S => if c.pos + 1 = rateBytes then .ok ⟨keccakF S, 0⟩ else .ok ⟨S, c.pos + 1⟩

/-- The loop of R173: AbsorbByte on every payload byte, in list order (R62). -/
def absorbBytes (rateBytes : BitVec 8) : List Byte → Cursor → Run Cursor
  | [], c => .ok c
  | b :: rest, c =>
    match absorbByte rateBytes c b with
    | .error f => .error f
    | .ok c1 => absorbBytes rateBytes rest c1

/-- ABSORB (R173): legal in ABSORBING only; consumes the whole payload, and RESULT is its length N. -/
def execAbsorb (payload : List Byte) (s : State) : Host.Outcome State Fault Refusal :=
  if s.phase = .absorbing then
    match absorbBytes s.rateBytes payload ⟨s.sponge, s.absOff⟩ with
    | .error f => .fault f
    | .ok c =>
      .next (complete (BitVec.ofNat 64 payload.length) [] { s with sponge := c.sponge, absOff := c.pos })
  else failed .misuse s

/-! ## lane_xor_inject -/

/-- LaneXor(k, w) of R177. -/
def laneXor (S : Sponge) (k : Fin 25) (w : Lane) : Sponge := setLane S k (lane S k ^^^ w)

/-- The word carrying eight consecutive input bytes `p[8k] … p[8k+7]`, little-endian (R177). -/
def inputLane (p : List Byte) (k : Nat) : Lane :=
  let b := fun j => p[8 * k + j]?.getD 0
  b 7 ++ b 6 ++ b 5 ++ b 4 ++ b 3 ++ b 2 ++ b 1 ++ b 0

/-- The lane loop of R178: whole lanes of a block XORed in by LaneXor. -/
def injectLanes (rateBytes : Nat) (p : List Byte) (S : Sponge) : Sponge :=
  (List.range (rateBytes / 8)).foldl
    (fun S k => if h : k < 25 then laneXor S ⟨k, h⟩ (inputLane p k) else S) S

/-- The byte loop of R178: the remainder of a rate that is not a multiple of 64 bits. -/
def injectRest (rateBytes : Nat) (p : List Byte) (S : Sponge) : Run Sponge :=
  (List.range' (8 * (rateBytes / 8)) (rateBytes % 8)).foldlM (fun S i => xorByte S i (p[i]?.getD 0)) S

/-- The bulk fast path of R178 on one whole block of input at offset 0. It is another realisation of RATE_BYTES
AbsorbByte steps; ABSORB uses the byte-wise path, as R178 asks of a model. -/
def absorbBlockByLanes (rateBytes : BitVec 8) (p : List Byte) (S : Sponge) : Run Cursor :=
  match injectRest rateBytes.toNat p (injectLanes rateBytes.toNat p S) with
  | .error f => .error f
  | .ok S' => .ok ⟨keccakF S', 0⟩

/-! ## FINALIZE -/

/-- XOR single bits of the block into S: bit position q is bit `q mod 8` of byte `q div 8` (R13, R186). -/
def xorBits (S : Sponge) : List Nat → Run Sponge
  | [] => .ok S
  | q :: rest =>
    match xorByte S (q / 8) (1#8 <<< (q % 8)) with
    | .error f => .error f
    | .ok S' => xorBits S' rest

/-- The positions of Q that fall in tail block blk, relative to the block (R186). -/
def blockPositions (r blk : Nat) (Q : List Nat) : List Nat :=
  (Q.filter fun q => blk * r ≤ q ∧ q < (blk + 1) * r).map fun q => q - blk * r

/-- The outer loop of R186: XOR each of n tail blocks into S, permuting after each. -/
def padBlocks (r : Nat) (Q : List Nat) : Nat → Nat → Sponge → Run Sponge
  | 0, _, S => .ok S
  | n + 1, blk, S =>
    match xorBits S (blockPositions r blk Q) with
    | .error f => .error f
    | .ok S' => padBlocks r Q n (blk + 1) (keccakF S')

/-- PadAndPermute(t, v) of R186 on the state s: the state array after the padded tail. A rate of 0 has no value
for the number of blocks `E/r`. -/
def padAndPermute (t : BitVec 3) (v : Byte) (s : State) : Run Sponge :=
  let r := s.rateBits.toNat
  let base := 8 * s.absOff.toNat
  let len := s.suffixLen.toNat
  if r = 0 then .error .rateZero
  else
    padBlocks r (tailPositions r base t.toNat v s.suffix len) (tailBlocks r (base + t.toNat) len) 0 s.sponge

/-- The phase FINALIZE leaves: SQUEEZING for an XOF with a whole-byte output length, else DONE (R183). -/
def finalPhase (xof : BitVec 1) (hashSize : BitVec 20) : Phase :=
  if xof = 1 ∧ hashSize.toNat % 8 = 0 then .squeezing else .done

/-- FINALIZE t v (R183): legal in ABSORBING only; pads, permutes, and emits the digest. -/
def execFinalize (t : BitVec 3) (v : Byte) (s : State) : Host.Outcome State Fault Refusal :=
  if s.phase = .absorbing then
    match padAndPermute t v s with
    | .error f => .fault f
    | .ok S =>
      match squeezeBytes s.rateBytes (ceilDiv s.hashSize.toNat 8) ⟨S, 0⟩ with
      | .error f => .fault f
      | .ok (o, c) =>
        .next (complete (BitVec.ofNat 64 (ceilDiv s.hashSize.toNat 8)) (maskOutput s.hashSize.toNat o)
          { s with
            sponge := c.sponge
            absOff := 0
            sqzPos := c.pos
            phase := finalPhase s.xof s.hashSize })
  else failed .misuse s

end Sys2Proof.Machine
end

