-- ==== Sys2Proof/Machine/Configuration.lean ====
section
/-! DEFINITION. CFG_VARIANT, CFG_EXPLICIT and SET_OUTLEN (spec/41_configuration.md R141, R144, R147). -/

namespace Sys2Proof.Machine

/-- CFG_VARIANT v (R141): legal in every phase; its parameter set is valid by construction (R224). -/
def execCfgVariant (v : Variant) (s : State) : Host.Outcome State Fault Refusal :=
  .next (complete 0 [] (loadParams (variantCapacity v) (variantHashSize v) (variantDomain v) v.code s))

/-- CFG_EXPLICIT c d h (R144): legal in every phase; fails with ERR_CONFIG on a capacity or an output length that
is not accepted (R145, R224). -/
def execCfgExplicit (cap : BitVec 11) (dom : Domain) (hsize : BitVec 20) (s : State) :
    Host.Outcome State Fault Refusal :=
  if capacityAccepted cap = false then failed .config s
  else if outputLengthAccepted hsize = false then failed .config s
  else .next (complete 0 [] (loadParams cap hsize dom explicitVariant s))

/-- SET_OUTLEN is legal in CONFIGURED and ABSORBING (R147, R172). -/
def setOutlenPhase : Phase → Bool
  | .unconfigured => false
  | .configured => true
  | .absorbing => true
  | .squeezing => false
  | .done => false

/-- SET_OUTLEN b (R147): the checks in the order MISUSE, NOT_XOF, CONFIG (R227). -/
def execSetOutlen (bits : BitVec 20) (s : State) : Host.Outcome State Fault Refusal :=
  if setOutlenPhase s.phase = false then failed .misuse s
  else if s.xof = 0 then failed .notXof s
  else if outputLengthAccepted bits = false then failed .config s
  else .next (complete 1 [] { s with hashSize := bits })

end Sys2Proof.Machine
end

