-- ==== Sys2Proof/Machine/Dispatch.lean ====
section
/-! DEFINITION. The meaning of every command, one arm per constructor of `Instr` (spec/30_encoding.md R81). -/

namespace Sys2Proof.Machine

def exec (i : Instr) (s : State) : Host.Outcome State Fault Refusal :=
  match i with
  | .cfgVariant v => Sys2Proof.Machine.execCfgVariant v s
  | .cfgExplicit cap dom hsize => Sys2Proof.Machine.execCfgExplicit cap dom hsize s
  | .setOutlen bits => Sys2Proof.Machine.execSetOutlen bits s
  | .init => Sys2Proof.Machine.execInit s
  | .absorb payload => Sys2Proof.Machine.execAbsorb payload s
  | .finalize tbits tbyte => Sys2Proof.Machine.execFinalize tbits tbyte s
  | .squeeze n => Sys2Proof.Machine.execSqueeze n s
  | .permute => Sys2Proof.Machine.execPermute s

end Sys2Proof.Machine
end

