-- ==== Sys2Proof/Machine/Flags.lean ====
section
/-! DEFINITION. The host-readable registers: STATUS, RESULT, PARAM0, PARAM1 and the LANE window
(spec/10_state.md R32 to R36), and READ (spec/20_memory.md R63, R71). -/

namespace Sys2Proof.Machine

/-- STATUS (R32), from bit 63 down: 32 reserved bits, SQZ_POS, ABS_OFF, ERR_SEEN, LAST_ERR, XOF, PHASE. -/
def statusImage (s : State) : Word :=
  0#32 ++ s.sqzPos ++ s.absOff ++ s.errSeen ++ s.lastErr ++ s.xof ++ s.phase.code

/-- PARAM0 (R33), from bit 63 down: 20 reserved bits, VARIANT, RATE_BYTES, 5 reserved, CAPACITY, 5 reserved,
RATE_BITS. -/
def param0Image (s : State) : Word :=
  0#20 ++ s.variant ++ s.rateBytes ++ 0#5 ++ s.capacity ++ 0#5 ++ s.rateBits

/-- PARAM1 (R34), from bit 63 down: 35 reserved bits, DOM, SUFFIX_LEN, SUFFIX, HASH_SIZE. -/
def param1Image (s : State) : Word :=
  0#35 ++ s.dom ++ s.suffixLen ++ s.suffix ++ s.hashSize

/-- The LANE window (R35): `LANE[k]` is `S.lane[k]` for k < 25; there is no other lane register. -/
def laneWindow (s : State) (k : Nat) : Word :=
  if h : k < 25 then lane s.sponge ⟨k, h⟩ else 0

/-- READ(addr) of R63. Reserved and misaligned addresses read 0 (R65, R71). -/
def readRegister (s : State) (addr : Nat) : Word :=
  if addr % 8 ≠ 0 then 0
  else if addr = 0x000 then statusImage s
  else if addr = 0x008 then s.result
  else if addr = 0x010 then param0Image s
  else if addr = 0x018 then param1Image s
  else if 0x100 ≤ addr ∧ addr ≤ 0x1C0 then laneWindow s ((addr - 0x100) / 8)
  else 0

/-- The response to a command: STATUS and RESULT after it, and the bytes it emitted (R64). -/
def commandResponse (s : State) : Response := .command (statusImage s) s.result s.out

end Sys2Proof.Machine
end

