-- ==== Sys2Proof/Machine/Transaction.lean ====
section
/-! DEFINITION. The host's transactions (spec/20_memory.md R62 to R64, spec/70_reset_and_hazards.md R260): how a
step takes one from the inbox, runs it and answers it. -/

namespace Sys2Proof.Machine

/-- Give the host one more response (R64). -/
def respond (r : Response) (s : State) : State := { s with outbox := s.outbox ++ [r] }

/-- Execute one command transaction (R9, R90): an illegal word fails with ERR_ILLEGAL, a payload of the wrong
length with ERR_LENGTH (R221, R226), and any other word is the command it decodes to. -/
def runCommand (cmd : Word) (payload : List Byte) (s : State) : Host.Outcome State Fault Refusal :=
  match decode cmd payload with
  | .illegal => failed .illegal s
  | .length => failed .length s
  | .command i => exec i s

/-- Return a command's response once all its effects are in place (R64, R74). -/
def answerCommand : Host.Outcome State Fault Refusal → Host.Outcome State Fault Refusal
  | .next s => .next (respond (commandResponse s) s)
  | .fault f => .fault f
  | .refused r => .refused r

/-- Take one move of the host (R260). A read answers the register's value and changes no state (R63, R67). -/
def takeMove (m : HostMove) (s : State) : Host.Outcome State Fault Refusal :=
  match m with
  | .command cmd payload => answerCommand (runCommand cmd payload s)
  | .read addr => .next (respond (.read (readRegister s addr)) s)
  | .reset => .next (hardwareReset s)

/-- The oldest pending move is taken and runs to completion before the next (R8, R66, R73). With none pending the
engine waits and its state persists (R238). -/
def serve (s : State) : Host.Outcome State Fault Refusal :=
  match s.inbox with
  | [] => .next s
  | m :: rest => takeMove m { s with inbox := rest }

/-- The command transaction of one opcode-table word, with the payload that goes with it, as the next move. -/
def deliverTableWord (nbits w : Nat) (s : State) : State :=
  let cmd := BitVec.ofNat 64 (w % 2 ^ nbits)
  { s with inbox := .command cmd (tablePayload cmd) :: s.inbox }

end Sys2Proof.Machine
end

