-- ==== Sys2Proof/Machine/Step.lean ====
section
/-! DEFINITION. One step of the machine: one transaction of the host, executed atomically (spec/00_scope.md R8). -/

namespace Sys2Proof.Machine

/-- One step: the engine takes the host's next transaction and runs it to completion (R8, R9). -/
def step (s : State) : Host.Outcome State Fault Refusal := serve s

/-- s with the command word w put where step takes its next command from: the front of the inbox. -/
def State.withFetchWord (s : State) (nbits w : Nat) : State := deliverTableWord nbits w s

end Sys2Proof.Machine
end

