-- ==== Sys2Proof/Machine/Assembler.lean ====
section
/-! DEFINITION. The assembler of spec/30_encoding.md R93 to R96: the lines of the assembly language, the commands and
pseudo-commands they stand for, and the text form of R93. It belongs to the host; the engine sees only the
transactions it emits. -/

namespace Sys2Proof.Machine

/-- One line of assembly (R93), with its operands as the numbers written, and the pseudo-commands of R95, R96. -/
inductive AsmLine where
  | cfgVariant (v : Variant)
  | cfgExplicit (cap : Nat) (dom : Domain) (hsize : Nat)
  | setOutlen (bits : Nat)
  | init
  | absorb (bytes : List Byte)
  | finalize (tbits tbyte : Nat)
  | squeeze (n : Nat)
  | permute
  | absorbLong (bytes : List Byte)
  | digest (v : Variant) (message : List Byte) (bitLength : Nat) (outbits : Option Nat)
  | digestExplicit (cap : Nat) (dom : Domain) (hsize : Nat) (message : List Byte) (bitLength : Nat)
  deriving DecidableEq, Repr

/-! ## Lines to commands -/

/-- `CFG_EXPLICIT cap=c, dom=d, hsize=h`, when the operands fit their fields (R94). -/
def asmCfgExplicit (cap : Nat) (dom : Domain) (hsize : Nat) : Option Instr :=
  if cap < 2 ^ 11 ∧ hsize < 2 ^ 20 then some (.cfgExplicit (BitVec.ofNat 11 cap) dom (BitVec.ofNat 20 hsize))
  else none

/-- `SET_OUTLEN b` (R94). -/
def asmSetOutlen (bits : Nat) : Option Instr :=
  if bits < 2 ^ 20 then some (.setOutlen (BitVec.ofNat 20 bits)) else none

/-- `FINALIZE tbits=t, tbyte=v` (R94). -/
def asmFinalize (tbits tbyte : Nat) : Option Instr :=
  if tbits < 2 ^ 3 ∧ tbyte < 2 ^ 8 then some (.finalize (BitVec.ofNat 3 tbits) (BitVec.ofNat 8 tbyte)) else none

/-- `ABSORB_LONG bytes` (R95): ABSORBs of MAX_CHUNK bytes each, the last holding the rest. -/
def absorbLong (bytes : List Byte) : List Instr :=
  (List.range (ceilDiv bytes.length Config.maxChunk)).map fun i =>
    .absorb ((bytes.drop (i * Config.maxChunk)).take Config.maxChunk)

/-- The common tail of the DIGEST pseudo-commands (R96): INIT, the whole bytes, and FINALIZE with the trailing
bits; the message must hold all `bitLength` bits. -/
def digestBody (message : List Byte) (bitLength : Nat) : Option (List Instr) :=
  let nb := bitLength / 8
  let t := bitLength % 8
  if message.length < (if t = 0 then nb else nb + 1) then none
  else
    some (.init :: absorbLong (message.take nb) ++
      [.finalize (BitVec.ofNat 3 t) (if t = 0 then 0 else message[nb]?.getD 0)])

/-- The SET_OUTLEN line of DIGEST: present only if outbits is given, which only a SHAKE variant may do (R96; log entry 5). -/
def digestOutlen (v : Variant) : Option Nat → Option (List Instr)
  | none => some []
  | some o =>
    match v with
    | .shake128 => (asmSetOutlen o).map fun i => [i]
    | .shake256 => (asmSetOutlen o).map fun i => [i]
    | .sha3_224 => none
    | .sha3_256 => none
    | .sha3_384 => none
    | .sha3_512 => none

/-- The commands a line stands for (R94 to R96); none is an assembly error, for which nothing is emitted. -/
def assemble : AsmLine → Option (List Instr)
  | .cfgVariant v => some [.cfgVariant v]
  | .cfgExplicit cap dom hsize => (asmCfgExplicit cap dom hsize).map fun i => [i]
  | .setOutlen bits => (asmSetOutlen bits).map fun i => [i]
  | .init => some [.init]
  | .absorb bytes => if bytes.length ≤ Config.maxChunk then some [.absorb bytes] else none
  | .finalize tbits tbyte => (asmFinalize tbits tbyte).map fun i => [i]
  | .squeeze n => if n < 2 ^ 16 then some [.squeeze (BitVec.ofNat 16 n)] else none
  | .permute => some [.permute]
  | .absorbLong bytes => some (absorbLong bytes)
  | .digest v message bitLength outbits => do
    let outlen ← digestOutlen v outbits
    let body ← digestBody message bitLength
    some (.cfgVariant v :: outlen ++ body)
  | .digestExplicit cap dom hsize message bitLength => do
    let cfg ← asmCfgExplicit cap dom hsize
    let body ← digestBody message bitLength
    some (cfg :: body)

/-- The transaction the host issues for a command (R94, spec/20_memory.md R62). -/
def transactionOf (i : Instr) : HostMove := .command (encodeWord i) (encodePayload i)

/-- The transactions of an assembly program, or none if a line is in error (R93, R94). -/
def assembleProgram (lines : List AsmLine) : Option (List HostMove) :=
  (lines.mapM assemble).map fun is => is.flatten.map transactionOf

/-! ## The text of a line -/

/-- The tokens of a line: words separated by spaces, each comma a token of its own, text from `;` on a comment. -/
def asmTokens : List Char → List (List Char)
  | [] => []
  | c :: rest =>
    if c = ';' then []
    else if c = ' ' then [] :: asmTokens rest
    else if c = ',' then [] :: [','] :: [] :: asmTokens rest
    else
      match asmTokens rest with
      | [] => [[c]]
      | tok :: more => if tok = [','] then [c] :: tok :: more else (c :: tok) :: more

/-- The tokens that are not empty. -/
def asmWords (line : List Char) : List (List Char) := (asmTokens line).filter fun tok => !tok.isEmpty

/-- One hexadecimal digit, either case. -/
def hexDigit (c : Char) : Option Nat :=
  if '0' ≤ c ∧ c ≤ '9' then some (c.toNat - '0'.toNat)
  else if 'a' ≤ c ∧ c ≤ 'f' then some (c.toNat - 'a'.toNat + 10)
  else if 'A' ≤ c ∧ c ≤ 'F' then some (c.toNat - 'A'.toNat + 10)
  else none

/-- The digits of a numeral in a base, most significant first. -/
def numeral (base : Nat) (digits : List Char) (acc : Nat) : Option Nat :=
  match digits with
  | [] => some acc
  | c :: rest =>
    match hexDigit c with
    | none => none
    | some d => if d < base then numeral base rest (acc * base + d) else none

/-- A number: decimal unless written `0x…` (R93). -/
def asmNumber : List Char → Option Nat
  | [] => none
  | '0' :: 'x' :: digits => if digits.isEmpty then none else numeral 16 digits 0
  | digits => numeral 10 digits 0

/-- Pairs of hexadecimal digits, high nibble first (R93, spec/20_memory.md R64). -/
def hexPairs : List Char → Option (List Byte)
  | [] => some []
  | [_] => none
  | hi :: lo :: rest => do
    let h ← hexDigit hi
    let l ← hexDigit lo
    let more ← hexPairs rest
    some (BitVec.ofNat 8 (16 * h + l) :: more)

/-- A hex byte string; `""` is the empty one (R93). -/
def asmBytes (tok : List Char) : Option (List Byte) :=
  if tok = ['"', '"'] then some [] else if tok.isEmpty then none else hexPairs tok

/-- A named operand `key=value`: its value. -/
def asmKeyed (key tok : List Char) : Option (List Char) :=
  if key ++ ['='] <+: tok then some (tok.drop (key.length + 1)) else none

/-- A variant name, in the source's spelling (R93). -/
def asmVariant (tok : List Char) : Option Variant :=
  if tok = "SHA3-224".toList then some .sha3_224
  else if tok = "SHA3-256".toList then some .sha3_256
  else if tok = "SHA3-384".toList then some .sha3_384
  else if tok = "SHA3-512".toList then some .sha3_512
  else if tok = "SHAKE128".toList then some .shake128
  else if tok = "SHAKE256".toList then some .shake256
  else none

/-- A domain name (R93). -/
def asmDomain (tok : List Char) : Option Domain :=
  if tok = "SHA3".toList then some .sha3
  else if tok = "SHAKE".toList then some .shake
  else none

/-- The value of a keyed number, such as `cap=512`. -/
def asmKeyedNumber (key tok : List Char) : Option Nat := (asmKeyed key tok).bind asmNumber

/-- The operands `cap=c, dom=d, hsize=h` (R93). -/
def asmExplicit (cap dom hsize : List Char) : Option (Nat × Domain × Nat) := do
  let c ← asmKeyedNumber "cap".toList cap
  let d ← (asmKeyed "dom".toList dom).bind asmDomain
  let h ← asmKeyedNumber "hsize".toList hsize
  some (c, d, h)

/-- A mnemonic and its operand words, commas between operands (R93, R95, R96). -/
def asmOperands (op : List Char) (operands : List (List Char)) : Option AsmLine :=
  if op = "CFG_VARIANT".toList then
    match operands with
    | [v] => (asmVariant v).map .cfgVariant
    | _ => none
  else if op = "CFG_EXPLICIT".toList then
    match operands with
    | [c, [','], d, [','], h] => (asmExplicit c d h).map fun p => .cfgExplicit p.1 p.2.1 p.2.2
    | _ => none
  else if op = "SET_OUTLEN".toList then
    match operands with
    | [b] => (asmNumber b).map .setOutlen
    | _ => none
  else if op = "INIT".toList then if operands.isEmpty then some .init else none
  else if op = "ABSORB".toList then
    match operands with
    | [p] => (asmBytes p).map .absorb
    | _ => none
  else if op = "FINALIZE".toList then
    match operands with
    | [] => some (.finalize 0 0)
    | [t, [','], v] => do
      let t ← asmKeyedNumber "tbits".toList t
      let v ← asmKeyedNumber "tbyte".toList v
      some (.finalize t v)
    | _ => none
  else if op = "SQUEEZE".toList then
    match operands with
    | [n] => (asmNumber n).map .squeeze
    | _ => none
  else if op = "PERMUTE".toList then if operands.isEmpty then some .permute else none
  else if op = "ABSORB_LONG".toList then
    match operands with
    | [p] => (asmBytes p).map .absorbLong
    | _ => none
  else if op = "DIGEST".toList then
    match operands with
    | [v, [','], m, [','], l] => do
      some (.digest (← asmVariant v) (← asmBytes m) (← asmNumber l) none)
    | [v, [','], m, [','], l, [','], o] => do
      some (.digest (← asmVariant v) (← asmBytes m) (← asmNumber l) (← asmKeyedNumber "outbits".toList o))
    | _ => none
  else if op = "DIGEST_EXPLICIT".toList then
    match operands with
    | [c, [','], d, [','], h, [','], m, [','], l] => do
      let p ← asmExplicit c d h
      some (.digestExplicit p.1 p.2.1 p.2.2 (← asmBytes m) (← asmNumber l))
    | _ => none
  else none

/-- One line of assembly text (R93); none is a line this grammar has no reading for. -/
def parseLine (line : List Char) : Option AsmLine :=
  match asmWords line with
  | [] => none
  | op :: operands => asmOperands op operands

end Sys2Proof.Machine
end

