-- ==== Sys2Proof/Machine/BitSponge.lean ====
section
/-! DEFINITION. The sponge on bit strings, as spec/42_absorb.md R184 and R189 and spec/00_scope.md R13 describe it: the
padded message `M || d || pad10*1` absorbed in r-bit blocks, and the output bits read from the block. The
engine does not run it; it is what the engine's output is compared with. -/

namespace Sys2Proof.Machine

/-- The bits of a byte, first bit lowest (R13). -/
def byteBits (b : Byte) : List Bool := (List.range 8).map fun i => b.getLsbD i

/-- The bit string of a byte list (R13). -/
def messageBits (p : List Byte) : List Bool := p.flatMap byteBits

/-- The t trailing message bits, held in the low t bits of v (R88, R185). -/
def trailingBits (t : BitVec 3) (v : Byte) : List Bool := (byteBits v).take t.toNat

/-- The domain suffix as a bit string, first bit first (R142). -/
def suffixBits : Domain → List Bool
  | .sha3 => [false, true]
  | .shake => [true, true, true, true]

/-- The number of zero bits of pad10*1: `j = (−m − 2) mod r` (R184). -/
def padZeros (r m : Nat) : Nat := ((-(m : Int) - 2) % (r : Int)).toNat

/-- `pad10*1(r, m) = 1 || 0^j || 1` (R184). -/
def pad101 (r m : Nat) : List Bool := true :: (List.replicate (padZeros r m) false ++ [true])

/-- The padded message P of R184. -/
def paddedMessage (r : Nat) (message suffix : List Bool) : List Bool :=
  message ++ suffix ++ pad101 r (message.length + suffix.length)

/-- The bits of S, bit i being bit `i mod 8` of `S.byte[i div 8]` (R13). -/
def stateBit (S : Sponge) (i : Nat) : Bool := (S[i / 8]?.getD 0).getLsbD (i % 8)

/-- The byte whose bit j is `f j`. -/
def byteOfBits (f : Nat → Bool) : Byte :=
  (List.range 8).foldl (fun acc j => if f j then acc ||| 1#8 <<< j else acc) 0

/-- XOR a bit string into the front of the state (R13, R184). -/
def xorBlock (S : Sponge) (block : List Bool) : Sponge :=
  Vector.ofFn fun i => S[i] ^^^ byteOfBits fun j => block[8 * i.val + j]?.getD false

/-- Absorb n blocks of r bits, permuting after each (R184). -/
def absorbBits (r : Nat) : Nat → Sponge → List Bool → Sponge
  | 0, S, _ => S
  | n + 1, S, bits => absorbBits r n (keccakF (xorBlock S (bits.take r))) (bits.drop r)

/-- The first r bits of the state (R24). -/
def rateBlock (r : Nat) (S : Sponge) : List Bool := (List.range r).map fun i => stateBit S i

/-- The output bit stream of n blocks: the block, then the block after one more permutation, and so on (R200). -/
def squeezeBits (r : Nat) : Nat → Sponge → List Bool
  | 0, _ => []
  | n + 1, S => rateBlock r S ++ squeezeBits r n (keccakF S)

/-- A bit string as bytes, the last one filled up with zero bits (R13, R203). -/
def packBits (bits : List Bool) : List Byte :=
  (List.range (ceilDiv bits.length 8)).map fun i => byteOfBits fun j => bits[8 * i + j]?.getD false

/-- The sponge on bit strings (R184, R200): h output bits for a message, at rate r. -/
def spongeDigest (r : Nat) (message suffix : List Bool) (h : Nat) : List Byte :=
  let padded := paddedMessage r message suffix
  packBits ((squeezeBits r (ceilDiv h r) (absorbBits r (padded.length / r) Sponge.zero padded)).take h)

end Sys2Proof.Machine
end

