-- ==== Sys2Proof/Safety.lean ====
section
/-! DEFINITION. What the spec says holds before and after every command (spec/10_state.md R31, R37, R42), and what a
run without errors is (spec/93_implementation_defined.md section 1), in the terms claims use. -/

namespace Sys2Proof.Machine

/-- The domain registers hold one of the two rows of R142, and XOF says which (R31). -/
abbrev State.DomainLegal (s : State) : Prop :=
  (s.dom = 0 ∧ s.suffix = 2 ∧ s.suffixLen = 2 ∧ s.xof = 0) ∨
    (s.dom = 1 ∧ s.suffix = 15 ∧ s.suffixLen = 4 ∧ s.xof = 1)

/-- Capacity and rate are legal and consistent: rate + capacity = 1600, both whole bytes, 1 ≤ RATE_BYTES ≤ 200 (R31). -/
abbrev State.RateLegal (s : State) : Prop :=
  s.capacity.toNat % 8 = 0 ∧ s.rateBits.toNat + s.capacity.toNat = 1600 ∧
    s.rateBytes.toNat * 8 = s.rateBits.toNat ∧ 1 ≤ s.rateBytes.toNat

/-- The output length is in its range (R31). -/
abbrev State.LengthLegal (s : State) : Prop :=
  1 ≤ s.hashSize.toNat ∧ s.hashSize.toNat ≤ 8 * Config.maxOutBytes

/-- VARIANT is a standard code or 7 (R31). -/
abbrev State.VariantLegal (s : State) : Prop := s.variant.toNat ≤ 5 ∨ s.variant = 7

/-- A legal parameter set (R31). -/
abbrev State.ParamsLegal (s : State) : Prop :=
  s.RateLegal ∧ s.DomainLegal ∧ s.LengthLegal ∧ s.VariantLegal

/-- No parameter set is loaded: the registers hold their reset values (R41). -/
abbrev State.ParamsCleared (s : State) : Prop :=
  s.capacity = 0 ∧ s.rateBits = 0 ∧ s.rateBytes = 0 ∧ s.hashSize = 0 ∧
    s.dom = 0 ∧ s.suffix = 0 ∧ s.suffixLen = 0 ∧ s.variant = 15 ∧ s.xof = 0

/-- The absorb offset is inside the block while absorbing (R29, R42 (c)). -/
abbrev State.AbsorbInBlock (s : State) : Prop := s.absOff.toNat < s.rateBytes.toNat

/-- What R42 (d) says of SQUEEZING. -/
abbrev State.SqueezeInBlock (s : State) : Prop :=
  s.sqzPos.toNat ≤ s.rateBytes.toNat ∧ s.xof = 1 ∧ s.hashSize.toNat % 8 = 0

/-- The error registers: only codes 0 to 5 are written, ERR_SEEN[0], [6] and [7] are never set, and a reported error is
also recorded (R37, R220). -/
abbrev State.ErrorsLegal (s : State) : Prop :=
  s.lastErr.toNat ≤ 5 ∧ s.errSeen &&& 0b11000001#8 = 0 ∧
    (s.lastErr ≠ 0 → s.errSeen.getLsbD s.lastErr.toNat = true)

/-- The invariants of R42, with the register ranges of R31 and R37. -/
structure State.Inv (s : State) : Prop where
  cleared : s.phase = .unconfigured → s.ParamsCleared
  params : s.phase ≠ .unconfigured → s.ParamsLegal
  absorbing : s.phase = .absorbing → s.AbsorbInBlock
  squeezing : s.phase = .squeezing → s.SqueezeInBlock
  errors : s.ErrorsLegal

/-- No command has failed since reset: ERR_SEEN = 0 (R37, R229). -/
abbrev State.NoErrorSeen (s : State) : Prop := s.errSeen = 0

/-- The session is ready for input: R42 holds and the phase is ABSORBING. -/
abbrev State.Absorbing (s : State) : Prop := s.phase = .absorbing ∧ s.ParamsLegal ∧ s.AbsorbInBlock

/-- The session is ready to give more output: R42 holds and the phase is SQUEEZING. -/
abbrev State.Squeezing (s : State) : Prop := s.phase = .squeezing ∧ s.ParamsLegal ∧ s.SqueezeInBlock

/-- A run that never stops: k steps from s all answer a next state, and s' is the last. -/
inductive Steps : Nat → State → State → Prop where
  | done (s : State) : Steps 0 s s
  | more {k : Nat} {s s1 s2 : State} : step s = .next s1 → Steps k s1 s2 → Steps (k + 1) s s2

end Sys2Proof.Machine
end

