-- ==== Sys2Proof/Certificates/Slice0/Obligations.lean ====
section
/-! DEFINITION. The statements for the provers, and the spec-level functions they compare the machine with. -/

open Sys2Proof
open Sys2Proof.Machine

/-! ## What the statements compare with -/

namespace Sys2Proof.Claims

/-- Commands one after the other, stopping at the first fault or refusal. -/
def runAll : List Instr → State → Host.Outcome State Fault Refusal
  | [], s => .next s
  | i :: rest, s =>
    match exec i s with
    | .next t => runAll rest t
    | .fault f => .fault f
    | .refused r => .refused r

/-- The match column of R92, as the table prints it. -/
def tableMatch : Opcode → Word
  | .cfgVariant => 0x0000000000000001
  | .cfgExplicit => 0x0000000000000002
  | .setOutlen => 0x0000000000000003
  | .init => 0x0000000000000004
  | .absorb => 0x0000000000000005
  | .finalize => 0x0000000000000006
  | .squeeze => 0x0000000000000007
  | .permute => 0x0000000000000008

/-- The mask column of R92, as the table prints it. -/
def tableMask : Opcode → Word
  | .cfgVariant => 0xFFFFFFFFFFFFF0FF
  | .cfgExplicit => 0xFFFFF00000C800FF
  | .setOutlen => 0xFFFFFFFFF00000FF
  | .init => 0xFFFFFFFFFFFFFFFF
  | .absorb => 0xFFFFFFFFFF0000FF
  | .finalize => 0xFFFFFFFFFF00F8FF
  | .squeeze => 0xFFFFFFFFFF0000FF
  | .permute => 0xFFFFFFFFFFFFFFFF

/-- The value checks of R90 on a word of an opcode. -/
def valueChecks (op : Opcode) (cmd : Word) : Prop :=
  (op = .cfgVariant → (field cmd 11 8).toNat ≤ 5) ∧ (op = .cfgExplicit → (field cmd 21 20).toNat ≤ 1)

/-- Opcode n with a nonzero reserved bit of its format (R82 to R88), field by field. -/
def reservedBitSet (cmd : Word) : Nat → Prop
  | 1 => field cmd 63 12 ≠ 0
  | 2 => field cmd 19 19 ≠ 0 ∨ field cmd 23 22 ≠ 0 ∨ field cmd 63 44 ≠ 0
  | 3 => field cmd 63 28 ≠ 0
  | 4 => field cmd 63 8 ≠ 0
  | 5 => field cmd 63 24 ≠ 0
  | 6 => field cmd 15 11 ≠ 0 ∨ field cmd 63 24 ≠ 0
  | 7 => field cmd 63 24 ≠ 0
  | 8 => field cmd 63 8 ≠ 0
  | _ => False

/-- The cases of R221. -/
def illegalWord (cmd : Word) : Prop :=
  let opc := (field cmd 7 0).toNat
  opc = 0 ∨ 9 ≤ opc ∨ reservedBitSet cmd opc ∨
    (opc = 1 ∧ 6 ≤ (field cmd 11 8).toNat) ∨ (opc = 2 ∧ 2 ≤ (field cmd 21 20).toNat)

/-- The case of R226: ABSORB with a payload of the wrong length, any other command with a payload. -/
def wrongLength (cmd : Word) (payload : List Byte) : Prop :=
  ((field cmd 7 0).toNat = 5 ∧ payload.length ≠ (field cmd 23 8).toNat) ∨
    ((field cmd 7 0).toNat ≠ 5 ∧ payload ≠ [])

/-- The MISUSE cells of the table of R172, which are the cases of R223. -/
def misuse : Instr → Phase → Prop
  | .setOutlen _, p => p = .unconfigured ∨ p = .squeezing ∨ p = .done
  | .init, p => p = .unconfigured
  | .absorb _, p => p ≠ .absorbing
  | .finalize _ _, p => p ≠ .absorbing
  | .squeeze _, p => p ≠ .squeezing
  | .cfgVariant _, _ => False
  | .cfgExplicit _ _ _, _ => False
  | .permute, _ => False

/-- The case of R225. -/
def notXof (s : State) : Instr → Prop
  | .setOutlen _ => s.xof = 0
  | _ => False

/-- The cases of R224. -/
def badConfig : Instr → Prop
  | .cfgExplicit cap _ h =>
    1600 ≤ cap.toNat ∨ cap.toNat % 8 ≠ 0 ∨ h.toNat = 0 ∨ 8 * Config.maxOutBytes < h.toNat
  | .setOutlen b => b.toNat = 0 ∨ 8 * Config.maxOutBytes < b.toNat
  | _ => False

/-- The code a decoded command must report: the first cause in the order of R227, 0 if there is none. -/
def reports (i : Instr) (s : State) (code : BitVec 4) : Prop :=
  (misuse i s.phase ∧ code = 4) ∨
    (¬misuse i s.phase ∧ notXof s i ∧ code = 3) ∨
    (¬misuse i s.phase ∧ ¬notXof s i ∧ badConfig i ∧ code = 2) ∨
    (¬misuse i s.phase ∧ ¬notXof s i ∧ ¬badConfig i ∧ code = 0)

/-- The state R222 gives after a failure with code e: three registers written, no output, nothing else. -/
def afterFailure (e : Nat) (s : State) : State :=
  { s with
    lastErr := BitVec.ofNat 4 e
    errSeen := s.errSeen ||| BitVec.ofNat 8 (2 ^ e)
    result := 0
    out := [] }

/-- The phase a successful command leaves (the table of R172, and R183 for FINALIZE). -/
def phaseAfter (s : State) : Instr → Phase
  | .cfgVariant _ => .configured
  | .cfgExplicit _ _ _ => .configured
  | .init => .absorbing
  | .finalize _ _ => if s.xof = 1 ∧ s.hashSize.toNat % 8 = 0 then .squeezing else .done
  | .setOutlen _ => s.phase
  | .absorb _ => s.phase
  | .squeeze _ => s.phase
  | .permute => s.phase

/-- One row of the variant table of R140. -/
structure VariantRow where
  code : Nat
  hashSize : Nat
  capacity : Nat
  rateBits : Nat
  rateBytes : Nat
  shake : Bool

/-- The variant table of R140. -/
def variantRow : Variant → VariantRow
  | .sha3_224 => ⟨0, 224, 448, 1152, 144, false⟩
  | .sha3_256 => ⟨1, 256, 512, 1088, 136, false⟩
  | .sha3_384 => ⟨2, 384, 768, 832, 104, false⟩
  | .sha3_512 => ⟨3, 512, 1024, 576, 72, false⟩
  | .shake128 => ⟨4, 128, 256, 1344, 168, true⟩
  | .shake256 => ⟨5, 256, 512, 1088, 136, true⟩

/-- The ρ offsets of R114, as its list indexed by k = x + 5y prints them. -/
def rhoTable : List Nat :=
  [0, 1, 62, 28, 27, 36, 44, 6, 55, 20, 3, 10, 43, 25, 39, 41, 45, 15, 21, 8, 18, 2, 61, 56, 14]

/-- RC[ir] as the table of R121 prints it, row by row: its left half is 0 to 11, its right half 12 to 23. -/
def roundConstantTable : Nat → Lane
  | 0 => 0x0000000000000001
  | 1 => 0x0000000000008082
  | 2 => 0x800000000000808A
  | 3 => 0x8000000080008000
  | 4 => 0x000000000000808B
  | 5 => 0x0000000080000001
  | 6 => 0x8000000080008081
  | 7 => 0x8000000000008009
  | 8 => 0x000000000000008A
  | 9 => 0x0000000000000088
  | 10 => 0x0000000080008009
  | 11 => 0x000000008000000A
  | 12 => 0x000000008000808B
  | 13 => 0x800000000000008B
  | 14 => 0x8000000000008089
  | 15 => 0x8000000000008003
  | 16 => 0x8000000000008002
  | 17 => 0x8000000000000080
  | 18 => 0x000000000000800A
  | 19 => 0x800000008000000A
  | 20 => 0x8000000080008081
  | 21 => 0x8000000000008080
  | 22 => 0x0000000080000001
  | 23 => 0x8000000080008008
  | _ => 0

/-- One turn of the loop of R110: θ, ρ, π, χ and ι with RC[ir], in that order. -/
def roundSpec (A : Lanes) (ir : Nat) : Lanes :=
  let A1 := theta A
  let A2 := rho A1
  let A3 := pi A2
  let A4 := chi A3
  iota (roundConstantTable ir) A4

/-- AbsorbByte(b) as R174 writes it, with the offset a number. -/
def absorbSpec (rb : Nat) (c : Sponge × Nat) (b : Byte) : Sponge × Nat :=
  let S : Sponge := Vector.ofFn fun i => if i.val = c.2 then c.1[i] ^^^ b else c.1[i]
  if c.2 + 1 = rb then (keccakF S, 0) else (S, c.2 + 1)

/-- SqueezeBytes(n) as R201 writes it, with the cursor a number. -/
def squeezeSpec (rb : Nat) : Nat → Sponge × Nat → List Byte × (Sponge × Nat)
  | 0, c => ([], c)
  | n + 1, c =>
    let c1 := if c.2 = rb then (keccakF c.1, 0) else c
    let rest := squeezeSpec rb n (c1.1, c1.2 + 1)
    (c1.1[c1.2]?.getD 0 :: rest.1, rest.2)

/-- The tail starts at L = 8·ABS_OFF + t (R185). -/
def tailStart (s : State) (t : BitVec 3) : Nat := 8 * s.absOff.toNat + t.toNat

/-- The tail fits one block (R186). -/
def tailFits (s : State) (t : BitVec 3) : Bool :=
  decide (tailStart s t + s.suffixLen.toNat + 2 ≤ s.rateBits.toNat)

/-- The set Q of R186 as a predicate on bit positions. -/
def tailBit (s : State) (t : BitVec 3) (v : Byte) (q : Nat) : Bool :=
  let base := 8 * s.absOff.toNat
  let L := tailStart s t
  let len := s.suffixLen.toNat
  let E := if tailFits s t then s.rateBits.toNat else 2 * s.rateBits.toNat
  (decide (base ≤ q ∧ q < L) && v.getLsbD (q - base)) ||
    (decide (L ≤ q ∧ q < L + len) && s.suffix.getLsbD (q - L)) || decide (q = L + len) || decide (q + 1 = E)

/-- Tail block k XORed into S bit by bit, then the permutation (R186). -/
def padBlockSpec (r k : Nat) (bit : Nat → Bool) (S : Sponge) : Sponge :=
  keccakF (Vector.ofFn fun i =>
    S[i] ^^^ byteOfBits fun j => decide (8 * i.val + j < r) && bit (k * r + (8 * i.val + j)))

/-- PadAndPermute(t, v) as R186 writes it. -/
def padSpec (s : State) (t : BitVec 3) (v : Byte) : Sponge :=
  let one := padBlockSpec s.rateBits.toNat 0 (tailBit s t v) s.sponge
  if tailFits s t then one else padBlockSpec s.rateBits.toNat 1 (tailBit s t v) one

/-- The masking of R203. -/
def maskSpec (h : Nat) (o : List Byte) : List Byte :=
  o.mapIdx fun i b => if i + 1 = o.length ∧ h % 8 ≠ 0 then b &&& BitVec.ofNat 8 (2 ^ (h % 8) - 1) else b

end Sys2Proof.Claims

open Sys2Proof.Claims

/-! ## Encoding -/

/-- Decoding an encoded well-formed command gives it back, for every operand value (R90, R94). -/
def Obligations.DecodeOfEncode : Prop :=
  ∀ i : Instr, i.wellFormed = true → decode (encodeWord i) (encodePayload i) = .command i

/-- A transaction that decodes to a command is that command's one encoding: no bit of it is dropped (R90, R94). -/
def Obligations.EncodeOfDecode : Prop :=
  ∀ (cmd : Word) (p : List Byte) (i : Instr), decode cmd p = .command i →
    i.wellFormed = true ∧ encodeWord i = cmd ∧ encodePayload i = p

/-- R92: a word is the command of a row iff `cmd & mask = match` and the value checks of R90 pass. -/
def Obligations.WordIsCommandIffMatch : Prop :=
  ∀ (cmd : Word) (op : Opcode),
    (∃ p i, decode cmd p = .command i ∧ i.opcode = op) ↔
      (cmd &&& tableMask op = tableMatch op ∧ valueChecks op cmd)

/-- R221: Decode returns ILLEGAL exactly in the listed cases, whatever the payload, and ERR_ILLEGAL is reported exactly
then. -/
def Obligations.IllegalExactly : Prop :=
  ∀ (cmd : Word) (p : List Byte),
    (decode cmd p = .illegal ↔ illegalWord cmd) ∧
      ∀ s t : State, runCommand cmd p s = .next t → (t.lastErr = 1 ↔ decode cmd p = .illegal)

/-- R226: a legal word fails on length exactly when ABSORB's payload is not N bytes or another command has a payload,
and ERR_LENGTH is reported exactly then. -/
def Obligations.LengthExactly : Prop :=
  ∀ (cmd : Word) (p : List Byte),
    (decode cmd p = .length ↔ (¬illegalWord cmd ∧ wrongLength cmd p)) ∧
      ∀ s t : State, runCommand cmd p s = .next t → (t.lastErr = 5 ↔ decode cmd p = .length)

/-- Words written out from R83 to R88 and R94 decode to the commands they stand for. -/
def Obligations.SpecWordsDecode : Prop :=
  decode 0x0000000000000101 [] = .command (.cfgVariant .sha3_256) ∧
  decode 0x0000000008120002 [] = .command (.cfgExplicit 512 .shake 8) ∧
  decode 0x0000000000100003 [] = .command (.setOutlen 4096) ∧
  decode 0x0000000000000004 [] = .command .init ∧
  decode 0x0000000000000305 [0x61, 0x62, 0x63] = .command (.absorb [0x61, 0x62, 0x63]) ∧
  decode 0x0000000000050306 [] = .command (.finalize 3 5) ∧
  decode 0x0000000000000807 [] = .command (.squeeze 8) ∧
  decode 0x0000000000000008 [] = .command .permute

/-- R62: a command word carried as bytes goes least-significant byte first, and comes back as itself. -/
def Obligations.TransportIsLittleEndian : Prop :=
  ∀ cmd : Word,
    (∀ j (h : j < (transportBytes cmd).length), (transportBytes cmd)[j] = cmd.extractLsb' (8 * j) 8) ∧
      (transportBytes cmd).length = 8 ∧ wordOfTransport (transportBytes cmd) = some cmd

/-- R95: ABSORB_LONG expands to `ceil_div(L, 65535)` ABSORBs, full but for the last, whose payloads are the bytes in
order, and its effect on S and ABS_OFF is that of one ABSORB of all the bytes. -/
def Obligations.AbsorbLongExpands : Prop :=
  ∀ bytes : List Byte,
    (absorbLong bytes).length = (bytes.length + 65534) / 65535 ∧
    (∀ i ∈ absorbLong bytes, i.wellFormed = true) ∧
    (absorbLong bytes).flatMap encodePayload = bytes ∧
    (∀ k < (absorbLong bytes).length - 1,
      ((absorbLong bytes)[k]?.map fun i => (encodePayload i).length) = some 65535) ∧
    ∀ s : State, s.Absorbing → ∃ t u, runAll (absorbLong bytes) s = .next t ∧ exec (.absorb bytes) s = .next u ∧
      t.sponge = u.sponge ∧ t.absOff = u.absOff

/-! ## The state array -/

/-- R22: bit z of lane k is bit z mod 8 of byte 8k + z div 8; writing lane k writes its eight bytes and no other. -/
def Obligations.LaneViewAliasesBytes : Prop :=
  ∀ (S : Sponge) (k : Fin 25),
    (∀ z (h : z < 64), (lane S k).getLsbD z = (S[8 * k.val + z / 8]'(by omega)).getLsbD (z % 8)) ∧
    ∀ (v : Lane) (i : Nat) (h : i < 200),
      (setLane S k v)[i] = if i / 8 = k.val then v.extractLsb' (8 * (i % 8)) 8 else S[i]

/-- R177: LaneXor(k, w) XORs byte j of w into byte 8k + j, and an input word carries eight bytes little-endian. -/
def Obligations.LaneXorIsEightByteXors : Prop :=
  ∀ (S : Sponge) (k : Fin 25),
    (∀ (w : Lane) (i : Nat) (h : i < 200),
      (laneXor S k w)[i] = if i / 8 = k.val then S[i] ^^^ w.extractLsb' (8 * (i % 8)) 8 else S[i]) ∧
    ∀ (p : List Byte) (j : Nat), j < 8 →
      (inputLane p k.val).extractLsb' (8 * j) 8 = p[8 * k.val + j]?.getD 0

/-! ## The permutation -/

/-- The five step mappings at every coordinate, as R112, R113, R115 with the offsets of R114, R116, R118 and R119 write
them. -/
def Obligations.StepMappingsByCoordinate : Prop :=
  ∀ (A : Lanes) (x y : Nat), x < 5 → y < 5 →
    let C := fun x => laneXY A x 0 ^^^ laneXY A x 1 ^^^ laneXY A x 2 ^^^ laneXY A x 3 ^^^ laneXY A x 4
    laneXY (theta A) x y = laneXY A x y ^^^ (C (x + 4) ^^^ rotl64 (C (x + 1)) 1) ∧
    laneXY (rho A) x y = rotl64 (laneXY A x y) (rhoTable[x + 5 * y]?.getD 0) ∧
    laneXY (pi A) x y = laneXY A (x + 3 * y) x ∧
    laneXY (chi A) x y = laneXY A x y ^^^ (~~~(laneXY A (x + 1) y) &&& laneXY A (x + 2) y) ∧
    ∀ rc, laneXY (iota rc A) x y = if x = 0 ∧ y = 0 then laneXY A 0 0 ^^^ rc else laneXY A x y

/-- R11: ROTL64 moves bit z to bit (z + n) mod 64. -/
def Obligations.RotationMovesBits : Prop :=
  ∀ (a : Lane) (n z : Nat), z < 64 → (rotl64 a n).getLsbD ((z + n) % 64) = a.getLsbD z

/-- R116: π moves the lane at (x, y) to (y, (2x + 3y) mod 5), and position 0 is never moved. -/
def Obligations.PiMovesLanes : Prop :=
  ∀ (A : Lanes) (x y : Nat), x < 5 → y < 5 →
    laneXY (pi A) y (2 * x + 3 * y) = laneXY A x y ∧ laneXY (pi A) 0 0 = laneXY A 0 0

/-- R117: the in-place traversal that carries one lane gives π(ρ(A)) for every A, and ROT_DEST is RHO indexed by the
position a lane moves to. -/
def Obligations.FusedTraversalIsPiOfRho : Prop :=
  (∀ A : Lanes, fusedRhoPi A = pi (rho A)) ∧
    ∀ x y : Fin 5,
      offsetsByDestination[y.val + 5 * ((2 * x.val + 3 * y.val) % 5)]?.getD 0 = rhoOffsets[x.val + 5 * y.val]?.getD 0

/-- R123: the generating rules reproduce the ρ offsets and the 24 round constants. -/
def Obligations.TablesFollowTheirGenerators : Prop :=
  (∀ kn ∈ rhoGenerate 24 0 1 0, rhoOffsets[kn.1]? = some kn.2) ∧ rhoOffsets[0] = 0 ∧
    ((rhoGenerate 24 0 1 0).map fun kn => kn.1).Nodup ∧
    (List.range 24).map roundConstantOf = roundConstants

/-- R110, R121, R125: KeccakF is the 24 rounds θ, ρ, π, χ, ι on the lane view, round index 0 first and each with its
constant of R121; and PERMUTE completes in every phase: it applies KeccakF to S, writes RESULT and LAST_ERR, and nothing
else. -/
def Obligations.PermuteResult : Prop :=
  (∀ S : Sponge, lanesOf (keccakF S) = (List.range 24).foldl roundSpec (lanesOf S)) ∧
    ∀ s : State,
      exec .permute s = .next { s with sponge := keccakF s.sponge, result := 0, lastErr := 0, out := [] }

/-! ## Configuration -/

/-- R140 to R142: CFG_VARIANT completes in every phase and loads its row; S, ABS_OFF and SQZ_POS are unchanged. -/
def Obligations.CfgVariantLoadsItsRow : Prop :=
  ∀ (v : Variant) (s : State),
    let row := variantRow v
    exec (.cfgVariant v) s = .next
      { s with
        capacity := BitVec.ofNat 11 row.capacity
        rateBits := BitVec.ofNat 11 row.rateBits
        rateBytes := BitVec.ofNat 8 row.rateBytes
        hashSize := BitVec.ofNat 20 row.hashSize
        dom := if row.shake then 1 else 0
        suffix := if row.shake then 0b1111 else 0b0010
        suffixLen := if row.shake then 4 else 2
        xof := if row.shake then 1 else 0
        variant := BitVec.ofNat 4 row.code
        phase := .configured
        result := 0
        lastErr := 0
        out := [] }

/-- R144: CFG_EXPLICIT completes in every phase on an accepted capacity and length, and loads the set as VARIANT 7. -/
def Obligations.CfgExplicitLoads : Prop :=
  ∀ (cap : BitVec 11) (d : Domain) (h : BitVec 20) (s : State),
    cap.toNat < 1600 → cap.toNat % 8 = 0 → 1 ≤ h.toNat → h.toNat ≤ 8 * Config.maxOutBytes →
    exec (.cfgExplicit cap d h) s = .next
      { s with
        capacity := cap
        rateBits := BitVec.ofNat 11 (1600 - cap.toNat)
        rateBytes := BitVec.ofNat 8 ((1600 - cap.toNat) / 8)
        hashSize := h
        dom := if d = .shake then 1 else 0
        suffix := if d = .shake then 0b1111 else 0b0010
        suffixLen := if d = .shake then 4 else 2
        xof := if d = .shake then 1 else 0
        variant := 7
        phase := .configured
        result := 0
        lastErr := 0
        out := [] }

/-- R147: SET_OUTLEN completes in CONFIGURED and ABSORBING for an XOF and a length in range, and writes HASH_SIZE alone
beside RESULT and LAST_ERR. -/
def Obligations.SetOutlenWritesLength : Prop :=
  ∀ (b : BitVec 20) (s : State),
    (s.phase = .configured ∨ s.phase = .absorbing) → s.xof = 1 → 1 ≤ b.toNat → b.toNat ≤ 8 * Config.maxOutBytes →
    exec (.setOutlen b) s = .next { s with hashSize := b, result := 1, lastErr := 0, out := [] }

/-- R148: no command but CFG_* changes the output length of a SHA3 domain, and of a SHAKE domain none but CFG_* and
SET_OUTLEN. -/
def Obligations.OutputLengthChangesOnlyBy : Prop :=
  ∀ (i : Instr) (s t : State), exec i s = .next t → t.hashSize ≠ s.hashSize →
    i.opcode = .cfgVariant ∨ i.opcode = .cfgExplicit ∨ (i.opcode = .setOutlen ∧ s.xof ≠ 0)

/-- R31: rate, capacity, domain, suffix and variant change only by a CFG_* command. -/
def Obligations.ParametersChangeOnlyByCfg : Prop :=
  ∀ (i : Instr) (s t : State), exec i s = .next t → i.opcode ≠ .cfgVariant → i.opcode ≠ .cfgExplicit →
    t.capacity = s.capacity ∧ t.rateBits = s.rateBits ∧ t.rateBytes = s.rateBytes ∧ t.dom = s.dom ∧
      t.suffix = s.suffix ∧ t.suffixLen = s.suffixLen ∧ t.variant = s.variant ∧ t.xof = s.xof

/-! ## The session -/

/-- R170: INIT completes in every phase but UNCONFIGURED; it zeroes S, ABS_OFF and SQZ_POS, enters ABSORBING and keeps
every parameter register and ERR_SEEN. -/
def Obligations.InitStartsSession : Prop :=
  ∀ s : State, s.phase ≠ .unconfigured →
    exec .init s = .next
      { s with
        sponge := Vector.replicate 200 0
        absOff := 0
        sqzPos := 0
        phase := .absorbing
        result := 0
        lastErr := 0
        out := [] }

/-- A new session depends on nothing of the old one: after INIT, states with the same parameter set agree on S, the
cursors, the phase and everything a later command reads (R170, R254). -/
def Obligations.InitForgetsOldSession : Prop :=
  ∀ s t : State, s.phase ≠ .unconfigured → t.phase ≠ .unconfigured →
    s.capacity = t.capacity → s.rateBits = t.rateBits → s.rateBytes = t.rateBytes → s.hashSize = t.hashSize →
    s.dom = t.dom → s.suffix = t.suffix → s.suffixLen = t.suffixLen → s.variant = t.variant → s.xof = t.xof →
    s.errSeen = t.errSeen → s.inbox = t.inbox → s.outbox = t.outbox →
    ∃ u, exec .init s = .next u ∧ exec .init t = .next u ∧ exec .init u = .next u

/-- R173, R174: in ABSORBING, ABSORB completes and is the left fold of AbsorbByte over its payload; RESULT is N and
every other register is unchanged. -/
def Obligations.AbsorbIsFoldOfAbsorbByte : Prop :=
  ∀ (p : List Byte) (s : State), s.Absorbing →
    let c := p.foldl (absorbSpec s.rateBytes.toNat) (s.sponge, s.absOff.toNat)
    exec (.absorb p) s = .next
      { s with
        sponge := c.1
        absOff := BitVec.ofNat 8 c.2
        result := BitVec.ofNat 64 p.length
        lastErr := 0
        out := [] }

/-- R24, R173: while the block does not fill, ABSORB changes exactly the bytes from ABS_OFF to ABS_OFF + N − 1, each by
XOR with its payload byte; every other byte of S, the capacity part among them, reads as before. -/
def Obligations.AbsorbInsideBlockChangesOnlyItsBytes : Prop :=
  ∀ (p : List Byte) (s : State), s.Absorbing → s.absOff.toNat + p.length < s.rateBytes.toNat →
    ∃ t, exec (.absorb p) s = .next t ∧ t.absOff.toNat = s.absOff.toNat + p.length ∧
      ∀ i (h : i < 200), t.sponge[i] =
        if s.absOff.toNat ≤ i ∧ i < s.absOff.toNat + p.length
        then s.sponge[i] ^^^ p[i - s.absOff.toNat]?.getD 0 else s.sponge[i]

/-- R176: ABSORB(a) and then ABSORB(b) leaves S and ABS_OFF as one ABSORB of a ++ b does. -/
def Obligations.AbsorbConcatenates : Prop :=
  ∀ (a b : List Byte) (s : State), s.Absorbing →
    ∃ s1 s2 s3, exec (.absorb a) s = .next s1 ∧ exec (.absorb b) s1 = .next s2 ∧
      exec (.absorb (a ++ b)) s = .next s3 ∧ s3.sponge = s2.sponge ∧ s3.absOff = s2.absOff

/-- R178: on a whole block of input at offset 0 the lane-wise fast path and RATE_BYTES AbsorbByte steps give the same S
and ABS_OFF, at every rate. -/
def Obligations.LaneFastPathEqualsByteSteps : Prop :=
  ∀ (rb : BitVec 8) (p : List Byte) (S : Sponge), 1 ≤ rb.toNat → rb.toNat ≤ 200 → p.length = rb.toNat →
    ∃ c, absorbBlockByLanes rb p S = .ok c ∧ absorbBytes rb p ⟨S, 0⟩ = .ok c

/-! ## Padding and FINALIZE -/

/-- R186: the four groups of tail positions are disjoint, and each position is set once. -/
def Obligations.TailGroupsAreDisjoint : Prop :=
  ∀ (t : BitVec 3) (v : Byte) (s : State), s.Absorbing →
    (setBits v t.toNat (8 * s.absOff.toNat) ++ setBits s.suffix s.suffixLen.toNat (tailStart s t) ++
      [tailStart s t + s.suffixLen.toNat,
       tailBlocks s.rateBits.toNat (tailStart s t) s.suffixLen.toNat * s.rateBits.toNat - 1]).Nodup

/-- R188: a second tail block is needed exactly when ABS_OFF is the last byte of the block and t is at least 5 for SHA3
or at least 3 for SHAKE. -/
def Obligations.SecondTailBlockExactly : Prop :=
  ∀ (t : BitVec 3) (s : State), s.Absorbing →
    (tailBlocks s.rateBits.toNat (tailStart s t) s.suffixLen.toNat = 2 ↔
      s.absOff.toNat + 1 = s.rateBytes.toNat ∧ ((s.dom = 0 ∧ 5 ≤ t.toNat) ∨ (s.dom = 1 ∧ 3 ≤ t.toNat)))

/-- R187: with TBITS = 0, PadAndPermute XORs PADSTART (0x06 or 0x1F) into byte ABS_OFF and 0x80 into byte
RATE_BYTES − 1, and permutes once. -/
def Obligations.ByteAlignedPadding : Prop :=
  ∀ (v : Byte) (s : State), s.Absorbing →
    padAndPermute 0 v s = .ok (keccakF (Vector.ofFn fun i =>
      s.sponge[i] ^^^ (if i.val = s.absOff.toNat then (if s.dom = 0 then 0x06 else 0x1F) else 0) ^^^
        (if i.val + 1 = s.rateBytes.toNat then 0x80 else 0)))

/-- R183, R186, R201, R203: in ABSORBING, FINALIZE completes: S, SQZ_POS and the output are those of PadAndPermute,
SqueezeBytes and the mask; ABS_OFF becomes 0; the phase and RESULT are as R183 says; nothing else changes. -/
def Obligations.FinalizeResult : Prop :=
  ∀ (t : BitVec 3) (v : Byte) (s : State), s.Absorbing →
    let n := (s.hashSize.toNat + 7) / 8
    let r := squeezeSpec s.rateBytes.toNat n (padSpec s t v, 0)
    exec (.finalize t v) s = .next
      { s with
        sponge := r.2.1
        absOff := 0
        sqzPos := BitVec.ofNat 8 r.2.2
        phase := if s.xof = 1 ∧ s.hashSize.toNat % 8 = 0 then .squeezing else .done
        result := BitVec.ofNat 64 n
        lastErr := 0
        out := maskSpec s.hashSize.toNat r.1 }

/-- R88: bits t and above of TBYTE have no effect. -/
def Obligations.FinalizeIgnoresHighTailBits : Prop :=
  ∀ (t : BitVec 3) (v w : Byte) (s : State), (∀ i < t.toNat, v.getLsbD i = w.getLsbD i) →
    exec (.finalize t v) s = exec (.finalize t w) s

/-- R203: a digest of h bits has `ceil_div(h, 8)` bytes, and when h is not a multiple of 8 the high bits of its last
byte are 0. -/
def Obligations.OutputIsMasked : Prop :=
  ∀ (t : BitVec 3) (v : Byte) (s : State), s.Absorbing →
    ∃ u, exec (.finalize t v) s = .next u ∧ u.out.length = (s.hashSize.toNat + 7) / 8 ∧
      ∀ j, j < 8 → s.hashSize.toNat % 8 ≠ 0 → s.hashSize.toNat % 8 ≤ j →
        (u.out[u.out.length - 1]?.getD 0).getLsbD j = false

/-- R184: pad10*1 brings the suffixed message to the least multiple of r that holds two more bits. -/
def Obligations.PaddedLengthIsLeast : Prop :=
  ∀ (r : Nat) (m d : List Bool), 1 ≤ r →
    r ∣ (paddedMessage r m d).length ∧ m.length + d.length + 2 ≤ (paddedMessage r m d).length ∧
      (paddedMessage r m d).length < m.length + d.length + 2 + r

/-- R184, R189, R200: for every legal parameter set, every chunking of the message and every number of trailing bits,
INIT, the ABSORBs and FINALIZE complete, and the output is that of the sponge on the bit string
`M || suffix || pad10*1`. -/
def Obligations.SessionComputesTheSponge : Prop :=
  ∀ (s : State) (d : Domain) (chunks : List (List Byte)) (t : BitVec 3) (v : Byte),
    s.phase ≠ .unconfigured → s.ParamsLegal → s.dom = d.code →
    ∃ u, runAll (.init :: (chunks.map .absorb ++ [.finalize t v])) s = .next u ∧
      u.out = spongeDigest s.rateBits.toNat (messageBits chunks.flatten ++ trailingBits t v) (suffixBits d)
        s.hashSize.toNat

/-! ## Squeezing -/

/-- R205, R201: in SQUEEZING, SQUEEZE completes: S, SQZ_POS and the output are those of SqueezeBytes(N), RESULT is N, and
nothing else changes. -/
def Obligations.SqueezeResult : Prop :=
  ∀ (n : BitVec 16) (s : State), s.Squeezing →
    let r := squeezeSpec s.rateBytes.toNat n.toNat (s.sponge, s.sqzPos.toNat)
    exec (.squeeze n) s = .next
      { s with
        sponge := r.2.1
        sqzPos := BitVec.ofNat 8 r.2.2
        result := BitVec.ofNat 64 n.toNat
        lastErr := 0
        out := r.1 }

/-- R201, R202: while the block lasts, output byte i is the byte at SQZ_POS + i and S is not permuted, not even when the
last byte of the block is given; from an exhausted block the bytes are those of the permuted state. -/
def Obligations.SqueezeReadsTheBlock : Prop :=
  ∀ (n : BitVec 16) (s : State), s.Squeezing →
    (s.sqzPos.toNat + n.toNat ≤ s.rateBytes.toNat →
      ∃ u, exec (.squeeze n) s = .next u ∧ u.sponge = s.sponge ∧ u.sqzPos.toNat = s.sqzPos.toNat + n.toNat ∧
        u.out.length = n.toNat ∧ ∀ i < n.toNat, u.out[i]? = s.sponge[s.sqzPos.toNat + i]?) ∧
    (s.sqzPos = s.rateBytes → 1 ≤ n.toNat → n.toNat ≤ s.rateBytes.toNat →
      ∃ u, exec (.squeeze n) s = .next u ∧ u.sponge = keccakF s.sponge ∧ u.sqzPos.toNat = n.toNat ∧
        u.out.length = n.toNat ∧ ∀ i < n.toNat, u.out[i]? = (keccakF s.sponge)[i]?)

/-- The output is one stream: SQUEEZE m and then SQUEEZE n emit what SQUEEZE (m + n) emits and leave the same S and
SQZ_POS (R200, R201). -/
def Obligations.SqueezeContinuesTheStream : Prop :=
  ∀ (m n k : BitVec 16) (s : State), s.Squeezing → m.toNat + n.toNat = k.toNat →
    ∃ s1 s2 s3, exec (.squeeze m) s = .next s1 ∧ exec (.squeeze n) s1 = .next s2 ∧
      exec (.squeeze k) s = .next s3 ∧ s3.out = s1.out ++ s2.out ∧ s3.sponge = s2.sponge ∧ s3.sqzPos = s2.sqzPos

/-- R206: over one absorbed message, a whole-byte XOF output of n1 bytes and SQUEEZE (n2 − n1) emit exactly the output of
n2 bytes; and an output of h1 bits agrees with a longer one on all bytes but a masked last one. -/
def Obligations.XofOutputsArePrefixes : Prop :=
  ∀ (t : BitVec 3) (v : Byte) (s : State), s.Absorbing → s.xof = 1 →
    (∀ n1 n2 : Nat, 1 ≤ n1 → n1 < n2 → n2 ≤ Config.maxOutBytes →
      ∃ u1 u2 u3, exec (.finalize t v) { s with hashSize := BitVec.ofNat 20 (8 * n1) } = .next u1 ∧
        exec (.finalize t v) { s with hashSize := BitVec.ofNat 20 (8 * n2) } = .next u2 ∧
        exec (.squeeze (BitVec.ofNat 16 (n2 - n1))) u1 = .next u3 ∧ u1.out ++ u3.out = u2.out) ∧
    (∀ h1 h2 : Nat, 1 ≤ h1 → h1 < h2 → h2 ≤ 8 * Config.maxOutBytes →
      ∃ u1 u2, exec (.finalize t v) { s with hashSize := BitVec.ofNat 20 h1 } = .next u1 ∧
        exec (.finalize t v) { s with hashSize := BitVec.ofNat 20 h2 } = .next u2 ∧
        u1.out.take (h1 / 8) <+: u2.out)

/-! ## Errors -/

/-- R220, R227: every transaction is answered, and it reports exactly the first cause in the order ILLEGAL, LENGTH,
MISUSE, NOT_XOF, CONFIG, or 0 when there is none. -/
def Obligations.FirstCauseIsReported : Prop :=
  ∀ (cmd : Word) (p : List Byte) (s : State), s.Inv →
    ∃ t, runCommand cmd p s = .next t ∧
      (illegalWord cmd → t.lastErr = 1) ∧
      (¬illegalWord cmd → wrongLength cmd p → t.lastErr = 5) ∧
      ∀ i, decode cmd p = .command i → reports i s t.lastErr

/-- R222: a transaction that reports a code e ≠ 0 wrote LAST_ERR, ERR_SEEN[e] and RESULT and emitted nothing; every other
part of the state is as before. -/
def Obligations.FailureChangesNothingElse : Prop :=
  ∀ (cmd : Word) (p : List Byte) (s t : State), runCommand cmd p s = .next t → t.lastErr ≠ 0 →
    t = afterFailure t.lastErr.toNat s

/-- R223: in a phase of R172's MISUSE cells a command fails with ERR_MISUSE by R222, and it reports ERR_MISUSE in no other. -/
def Obligations.MisuseExactly : Prop :=
  ∀ (i : Instr) (s : State),
    (misuse i s.phase → exec i s = .next (afterFailure 4 s)) ∧
      ∀ t, exec i s = .next t → t.lastErr = 4 → misuse i s.phase

/-- R224: CFG_EXPLICIT fails with ERR_CONFIG on every value R224 lists, and so does SET_OUTLEN where it is not misused
and the set is an XOF; no other command and no other value reports ERR_CONFIG. -/
def Obligations.BadConfigExactly : Prop :=
  ∀ (i : Instr) (s : State),
    (badConfig i → ¬misuse i s.phase → ¬notXof s i → exec i s = .next (afterFailure 2 s)) ∧
      ∀ t, exec i s = .next t → t.lastErr = 2 → badConfig i

/-- R225: SET_OUTLEN with XOF = 0, where it is not misused, fails with ERR_NOT_XOF and RESULT 0; nothing else reports
ERR_NOT_XOF; and of a legal parameter set XOF is 0 exactly when DOM is SHA3. -/
def Obligations.SetOutlenNeedsXof : Prop :=
  (∀ (b : BitVec 20) (s : State), (s.phase = .configured ∨ s.phase = .absorbing) → s.xof = 0 →
    exec (.setOutlen b) s = .next (afterFailure 3 s)) ∧
    (∀ (i : Instr) (s t : State), exec i s = .next t → t.lastErr = 3 → ∃ b, i = .setOutlen b ∧ s.xof = 0) ∧
    ∀ s : State, s.ParamsLegal → (s.xof = 0 ↔ s.dom = 0)

/-- R37: a step that takes no reset clears no ERR_SEEN bit, and a command that fails with code e sets bit e. -/
def Obligations.ErrorsSeenAreSticky : Prop :=
  (∀ s t : State, step s = .next t → s.inbox.head? ≠ some .reset →
    ∀ e, s.errSeen.getLsbD e = true → t.errSeen.getLsbD e = true) ∧
    ∀ (cmd : Word) (p : List Byte) (s t : State), runCommand cmd p s = .next t → t.lastErr ≠ 0 →
      t.errSeen.getLsbD t.lastErr.toNat = true

/-- R229: a command does after an error what it would have done without it, except for ERR_SEEN. -/
def Obligations.ErrorLeavesNextCommandAlone : Prop :=
  ∀ (i : Instr) (e : ErrCode) (s t : State), exec i s = .next t →
    exec i (failClosed e s) = .next { t with errSeen := t.errSeen ||| BitVec.ofNat 8 (2 ^ e.code.toNat) }

/-- R172: a successful command leaves the phase of the table; a failed, illegal or mis-sized one leaves the phase; and a
MISUSE cell fails with ERR_MISUSE and changes nothing else. -/
def Obligations.PhaseTable : Prop :=
  (∀ (i : Instr) (s t : State), exec i s = .next t →
    (misuse i s.phase → t = afterFailure 4 s) ∧ (t.lastErr = 0 → t.phase = phaseAfter s i)) ∧
    ∀ (cmd : Word) (p : List Byte) (s t : State), runCommand cmd p s = .next t →
      (t.lastErr ≠ 0 → t.phase = s.phase) ∧ (illegalWord cmd ∨ wrongLength cmd p → t.lastErr ≠ 0)

/-! ## The whole machine -/

/-- R111, R25: no command but INIT, ABSORB, FINALIZE, SQUEEZE and PERMUTE changes the state array. -/
def Obligations.StateArrayChangesOnlyBy : Prop :=
  ∀ (i : Instr) (s t : State), exec i s = .next t → t.sponge ≠ s.sponge →
    i.opcode = .init ∨ i.opcode = .absorb ∨ i.opcode = .finalize ∨ i.opcode = .squeeze ∨ i.opcode = .permute

/-- R41: the register images and the state after reset. -/
def Obligations.ResetImages : Prop :=
  readRegister State.reset 0x000 = 0 ∧ readRegister State.reset 0x008 = 0 ∧
    readRegister State.reset 0x010 = 0x00000F0000000000 ∧ readRegister State.reset 0x018 = 0 ∧
    (∀ k < 25, readRegister State.reset (0x100 + 8 * k) = 0) ∧
    State.reset.phase = .unconfigured ∧ State.reset.variant = 15

/-- R42: the reset state meets the invariants. -/
def Obligations.ResetMeetsInvariants : Prop := State.reset.Inv

/-- R42: every step keeps the invariants, whatever transaction the host sends. -/
def Obligations.StepKeepsInvariants : Prop :=
  ∀ s t : State, s.Inv → step s = .next t → t.Inv

/-- While the invariants hold the machine never stops: every transaction is answered, and no byte outside S is
touched (R42, R222, R259). -/
def Obligations.StepNeverStops : Prop :=
  ∀ s : State, s.Inv → ∃ t, step s = .next t

/-- From reset, under every list of host moves, every move is served, one a step, and the invariants of R42 hold after
each. That the moves stand in a list which the step takes from the front is log entry 1, and that a hardware reset keeps
the moves still pending is the model's choice, log entry 2. -/
def Obligations.EveryHostRunGoesOn : Prop :=
  ∀ (moves : List HostMove) (k : Nat), k ≤ moves.length →
    ∃ t, Steps k { State.reset with inbox := moves } t ∧ t.Inv ∧ t.inbox = moves.drop k

/-- When the oldest pending move is a transaction that decodes to i, the step is exec of i, answered with STATUS, RESULT and
the output after it (R8, R64, R90). -/
def Obligations.StepRunsTheDecodedCommand : Prop :=
  ∀ (s : State) (cmd : Word) (p : List Byte) (rest : List HostMove) (i : Instr),
    s.inbox = .command cmd p :: rest → decode cmd p = .command i →
    step s =
      match exec i { s with inbox := rest } with
      | .next t => .next { t with outbox := t.outbox ++ [.command (statusImage t) t.result t.out] }
      | .fault f => .fault f
      | .refused r => .refused r

/-- An illegal word or a payload of the wrong length is answered with ERR_ILLEGAL or ERR_LENGTH, and changes nothing else
(R221, R222, R226). -/
def Obligations.StepReportsBadTransactions : Prop :=
  ∀ (s : State) (cmd : Word) (p : List Byte) (rest : List HostMove),
    s.inbox = .command cmd p :: rest →
    (illegalWord cmd → ∃ t, step s = .next t ∧
      { t with outbox := s.outbox } = afterFailure 1 { s with inbox := rest } ∧
      t.outbox = s.outbox ++ [.command (statusImage t) 0 []]) ∧
    (¬illegalWord cmd → wrongLength cmd p → ∃ t, step s = .next t ∧
      { t with outbox := s.outbox } = afterFailure 5 { s with inbox := rest } ∧
      t.outbox = s.outbox ++ [.command (statusImage t) 0 []])

/-- R63: a read answers the register at its address, 0 at a reserved or misaligned one, and changes no state. -/
def Obligations.ReadAnswersTheMap : Prop :=
  ∀ (s : State) (addr : Nat) (rest : List HostMove), s.inbox = .read addr :: rest →
    ∃ v : Word, step s = .next { s with inbox := rest, outbox := s.outbox ++ [.read v] } ∧
      (addr % 8 ≠ 0 → v = 0) ∧
      (addr = 0x000 → v = statusImage s) ∧
      (addr = 0x008 → v = s.result) ∧
      (addr = 0x010 → v = param0Image s) ∧
      (addr = 0x018 → v = param1Image s) ∧
      (∀ k : Fin 25, addr = 0x100 + 8 * k.val → v = lane s.sponge k) ∧
      (0x020 ≤ addr → addr < 0x100 → v = 0) ∧
      (0x1C8 ≤ addr → v = 0)

/-- R32: the fields of STATUS stand at their bits, and the reserved bits read 0. -/
def Obligations.StatusFields : Prop :=
  ∀ s : State,
    field (statusImage s) 2 0 = s.phase.code ∧ field (statusImage s) 3 3 = s.xof ∧
      field (statusImage s) 7 4 = s.lastErr ∧ field (statusImage s) 15 8 = s.errSeen ∧
      field (statusImage s) 23 16 = s.absOff ∧ field (statusImage s) 31 24 = s.sqzPos ∧
      field (statusImage s) 63 32 = 0

/-- R33, R34: the fields of PARAM0 and PARAM1 stand at their bits, and the reserved bits read 0. -/
def Obligations.ParamFields : Prop :=
  ∀ s : State,
    field (param0Image s) 10 0 = s.rateBits ∧ field (param0Image s) 15 11 = 0 ∧
      field (param0Image s) 26 16 = s.capacity ∧ field (param0Image s) 31 27 = 0 ∧
      field (param0Image s) 39 32 = s.rateBytes ∧ field (param0Image s) 43 40 = s.variant ∧
      field (param0Image s) 63 44 = 0 ∧
      field (param1Image s) 19 0 = s.hashSize ∧ field (param1Image s) 23 20 = s.suffix ∧
      field (param1Image s) 26 24 = s.suffixLen ∧ field (param1Image s) 28 27 = s.dom ∧
      field (param1Image s) 63 29 = 0

/-- R250: a hardware reset gives every piece of the engine's state its reset value, whatever the state was. -/
def Obligations.HardwareResetRestoresResetState : Prop :=
  ∀ (s : State) (rest : List HostMove), s.inbox = .reset :: rest →
    ∃ t, step s = .next t ∧ t.sponge = Vector.replicate 200 0 ∧ t.phase = .unconfigured ∧ t.absOff = 0 ∧
      t.sqzPos = 0 ∧ t.capacity = 0 ∧ t.rateBits = 0 ∧ t.rateBytes = 0 ∧ t.hashSize = 0 ∧ t.dom = 0 ∧
      t.suffix = 0 ∧ t.suffixLen = 0 ∧ t.xof = 0 ∧ t.variant = 15 ∧ t.lastErr = 0 ∧ t.errSeen = 0 ∧ t.result = 0

/-- With no transaction pending the engine's state persists. The model's choice, log entry 1 (the spec gives the host's
moves and no other event, R238, R260). -/
def Obligations.IdleEngineKeepsItsState : Prop :=
  ∀ s : State, s.inbox = [] → step s = .next s
end

