-- ==== Sys2Proof/Laws/Sponge.lean ====
section
/-! SUPPORT. The byte view and the lane view of the state array are one storage (spec/10_state.md R22). -/

namespace Sys2Proof.Machine

/-! ## Bytes -/

theorem byteAt_of_lt {S : Sponge} {i : Nat} (h : i < 200) : byteAt S i = .ok S[i] := by
  simp [byteAt, h]

theorem byteAt_of_ge {S : Sponge} {i : Nat} (h : 200 ≤ i) : byteAt S i = .error (.noStateByte i) := by
  simp [byteAt, Nat.not_lt.mpr h]

theorem xorByte_of_lt {S : Sponge} {i : Nat} {b : Byte} (h : i < 200) :
    xorByte S i b = .ok (S.set i (S[i] ^^^ b)) := by
  simp [xorByte, h]

theorem xorByte_of_ge {S : Sponge} {i : Nat} {b : Byte} (h : 200 ≤ i) :
    xorByte S i b = .error (.noStateByte i) := by
  simp [xorByte, Nat.not_lt.mpr h]

/-- All that xorByte can do: the byte exists, it alone changes, and it receives b. -/
theorem xorByte_cases {S S' : Sponge} {i : Nat} {b : Byte} (h : xorByte S i b = .ok S') :
    i < 200 ∧ ∀ (j : Nat) (hj : j < 200), S'[j] = if j = i then S[j] ^^^ b else S[j] := by
  by_cases hi : i < 200
  · rw [xorByte_of_lt hi] at h
    cases h
    refine ⟨hi, fun j hj => ?_⟩
    by_cases hji : j = i
    · subst hji; simp
    · simp [hji, Ne.symm hji]
  · rw [xorByte_of_ge (Nat.le_of_not_lt hi)] at h
    cases h

@[simp] theorem getElem_spongeZero (i : Nat) (h : i < 200) : Sponge.zero[i] = 0 := by
  simp [Sponge.zero]

/-! ## Lanes -/

@[simp] theorem getElem_lanesOf (S : Sponge) (k : Nat) (h : k < 25) : (lanesOf S)[k] = lane S ⟨k, h⟩ := by
  simp [lanesOf]

@[simp] theorem getElem_bytesOf (A : Lanes) (i : Nat) (h : i < 200) :
    (bytesOf A)[i] = laneByte (A[i / 8]'(by omega)) (i % 8) := by
  simp [bytesOf]

/-- Byte j of eight appended bytes. -/
theorem laneByte_append (a7 a6 a5 a4 a3 a2 a1 a0 : Byte) (j : Nat) (h : j < 8) :
    laneByte (a7 ++ a6 ++ a5 ++ a4 ++ a3 ++ a2 ++ a1 ++ a0 : Lane) j = [a0, a1, a2, a3, a4, a5, a6, a7][j] := by
  unfold laneByte
  apply BitVec.eq_of_getLsbD_eq
  intro i hi
  rw [BitVec.getLsbD_extractLsb']
  simp only [BitVec.getLsbD_append, hi, decide_true, Bool.true_and]
  interval_cases j <;>
    (repeat (first | rw [if_pos (by omega)] | rw [if_neg (by omega)])) <;>
    simp only [List.getElem_cons_zero, List.getElem_cons_succ] <;> congr 1 <;> omega

/-- A lane is the composition of its bytes, least-significant byte first (R61). -/
theorem append_laneBytes (v : Lane) :
    laneByte v 7 ++ laneByte v 6 ++ laneByte v 5 ++ laneByte v 4 ++ laneByte v 3 ++ laneByte v 2 ++
      laneByte v 1 ++ laneByte v 0 = v := by
  apply BitVec.eq_of_getLsbD_eq
  intro i hi
  simp only [laneByte, BitVec.getLsbD_append, BitVec.getLsbD_extractLsb']
  split_ifs <;> rw [decide_eq_true (by omega), Bool.true_and] <;> congr 1 <;> omega

/-- Byte j of lane k is byte 8k + j of the state (R22). -/
theorem laneByte_lane (S : Sponge) (k : Fin 25) (j : Nat) (h : j < 8) :
    laneByte (lane S k) j = S[8 * k.val + j]'(by omega) := by
  rw [lane, laneByte_append _ _ _ _ _ _ _ _ j h]
  interval_cases j <;> rfl

/-- Lanes with the same bytes are equal. -/
theorem lane_ext {v w : Lane} (h : ∀ j < 8, laneByte v j = laneByte w j) : v = w := by
  rw [← append_laneBytes v, ← append_laneBytes w, h 0 (by omega), h 1 (by omega), h 2 (by omega),
    h 3 (by omega), h 4 (by omega), h 5 (by omega), h 6 (by omega), h 7 (by omega)]

theorem bytesOf_lanesOf (S : Sponge) : bytesOf (lanesOf S) = S := by
  ext i hi
  rw [getElem_bytesOf _ _ hi, getElem_lanesOf _ _ (by omega), laneByte_lane _ _ _ (by omega)]
  simp only [Nat.div_add_mod]

theorem lane_bytesOf (A : Lanes) (k : Fin 25) : lane (bytesOf A) k = A[k.val] := by
  apply lane_ext
  intro j hj
  rw [laneByte_lane _ _ _ hj, getElem_bytesOf _ _ (by omega)]
  congr 1
  · congr 1; omega
  · omega

theorem lanesOf_bytesOf (A : Lanes) : lanesOf (bytesOf A) = A := by
  ext k hk
  rw [getElem_lanesOf _ _ hk, lane_bytesOf]

/-- A lane view determines the state. -/
theorem eq_of_lanesOf_eq {S T : Sponge} (h : lanesOf S = lanesOf T) : S = T := by
  rw [← bytesOf_lanesOf S, h, bytesOf_lanesOf]

/-! ## The permutation -/

/-- KeccakF by its lane view (R110); `keccakF` itself is irreducible. -/
theorem keccakF_eq (S : Sponge) : keccakF S = bytesOf (keccakLanes (lanesOf S)) := by
  unfold keccakF
  rfl

/-- The lanes of the permuted state are the 24 rounds of its lanes (R23: the permutation uses only the lane view). -/
theorem lanesOf_keccakF (S : Sponge) : lanesOf (keccakF S) = keccakLanes (lanesOf S) := by
  rw [keccakF_eq, lanesOf_bytesOf]

/-- `A[x,y]` of lanes given by coordinate (R23). -/
theorem laneXY_lanesBy (f : Nat → Nat → Lane) (x y : Nat) (hx : x < 5) (hy : y < 5) :
    laneXY (lanesBy f) x y = f x y := by
  simp only [laneXY, lanesBy, Vector.getElem_ofFn]
  congr 1 <;> omega

/-- Lanes that agree at every coordinate are equal (R23). -/
theorem lanes_ext_xy {A B : Lanes} (h : ∀ x < 5, ∀ y < 5, laneXY A x y = laneXY B x y) : A = B := by
  refine Vector.ext fun k hk => ?_
  have := h (k % 5) (by omega) (k / 5) (by omega)
  have e : k % 5 % 5 + 5 * (k / 5 % 5) = k := by omega
  simpa only [laneXY, e] using this

end Sys2Proof.Machine
end

