-- ==== Sys2Proof/Laws/Cursor.lean ====
section
/-! SUPPORT. What the byte loops can do: AbsorbByte and its loop (spec/42_absorb.md R173, R174), the squeeze loop
(spec/43_squeeze.md R201) and the bit loop of the padding (R186). -/

namespace Sys2Proof.Machine

/-! ## Absorbing -/

theorem absorbByte_of_lt {rb : BitVec 8} {c : Cursor} {b : Byte} (h : c.pos.toNat < 200) :
    absorbByte rb c b =
      .ok (if c.pos + 1 = rb then ⟨keccakF (c.sponge.set c.pos.toNat (c.sponge[c.pos.toNat] ^^^ b)), 0⟩
        else ⟨c.sponge.set c.pos.toNat (c.sponge[c.pos.toNat] ^^^ b), c.pos + 1⟩) := by
  simp only [absorbByte, xorByte_of_lt h]
  split <;> rfl

/-- Inside the block an increment of the 8-bit offset does not wrap. -/
theorem toNat_add_one_of_lt {p rb : BitVec 8} (h : p.toNat < rb.toNat) : (p + 1).toNat = p.toNat + 1 := by
  have := rb.isLt
  have h1 : (1 : BitVec 8).toNat = 1 := rfl
  rw [BitVec.toNat_add, h1]
  omega

/-- AbsorbByte inside the block completes, stays inside the block and advances the offset by one, mod the rate. -/
theorem absorbByte_ok {rb : BitVec 8} {c : Cursor} {b : Byte} (hp : c.pos.toNat < rb.toNat) (hr : rb.toNat ≤ 200) :
    ∃ c', absorbByte rb c b = .ok c' ∧ c'.pos.toNat < rb.toNat ∧ c'.pos.toNat = (c.pos.toNat + 1) % rb.toNat := by
  have h1 := toNat_add_one_of_lt hp
  rw [absorbByte_of_lt (by omega)]
  by_cases he : c.pos + 1 = rb
  · refine ⟨_, rfl, ?_, ?_⟩ <;> rw [if_pos he]
    · show 0 < rb.toNat
      omega
    · have : c.pos.toNat + 1 = rb.toNat := by rw [← h1, he]
      simp [this]
  · have hne : c.pos.toNat + 1 ≠ rb.toNat := by
      intro h; apply he; apply BitVec.eq_of_toNat_eq; rw [h1, h]
    refine ⟨_, rfl, ?_, ?_⟩ <;> rw [if_neg he] <;> simp only [h1]
    · omega
    · rw [Nat.mod_eq_of_lt (by omega)]

/-- The loop of R173 completes inside the block and leaves the offset advanced by the number of bytes, mod the rate. -/
theorem absorbBytes_ok {rb : BitVec 8} (hr : rb.toNat ≤ 200) (p : List Byte) :
    ∀ c : Cursor, c.pos.toNat < rb.toNat →
      ∃ c', absorbBytes rb p c = .ok c' ∧ c'.pos.toNat < rb.toNat ∧
        c'.pos.toNat = (c.pos.toNat + p.length) % rb.toNat := by
  induction p with
  | nil => intro c hc; exact ⟨c, rfl, hc, by simp [Nat.mod_eq_of_lt hc]⟩
  | cons b rest ih =>
    intro c hc
    obtain ⟨c1, h1, hlt, hpos⟩ := absorbByte_ok (b := b) hc hr
    obtain ⟨c2, h2, hlt2, hpos2⟩ := ih c1 hlt
    refine ⟨c2, by rw [absorbBytes, h1]; exact h2, hlt2, ?_⟩
    rw [hpos2, hpos, Nat.mod_add_mod, List.length_cons, Nat.add_assoc, Nat.add_comm 1]

/-- The loop of R173 over a ++ b is the loop over a and then the loop over b. -/
theorem absorbBytes_append (rb : BitVec 8) (a b : List Byte) :
    ∀ c : Cursor, absorbBytes rb (a ++ b) c =
      match absorbBytes rb a c with
      | .error f => .error f
      | .ok c' => absorbBytes rb b c' := by
  induction a with
  | nil => intro c; rfl
  | cons x rest ih =>
    intro c
    simp only [List.cons_append, absorbBytes]
    cases absorbByte rb c x with
    | error f => rfl
    | ok c1 => exact ih c1

/-! ## Squeezing -/

/-- Permute-on-demand leaves a cursor strictly inside the block. -/
theorem refill_pos_lt {rb : BitVec 8} {c : Cursor} (h0 : 0 < rb.toNat) (hp : c.pos.toNat ≤ rb.toNat) :
    (refill rb c).pos.toNat < rb.toNat := by
  unfold refill
  split
  · simpa using h0
  · rename_i hne
    refine Nat.lt_of_le_of_ne hp fun h => hne (BitVec.eq_of_toNat_eq h)

/-- One squeezed byte inside the block: the byte at the cursor after permute-on-demand. -/
theorem squeezeByte_ok {rb : BitVec 8} {c : Cursor} (h0 : 0 < rb.toNat) (hp : c.pos.toNat ≤ rb.toNat)
    (hr : rb.toNat ≤ 200) :
    ∃ b c', squeezeByte rb c = .ok (b, c') ∧ c'.pos.toNat ≤ rb.toNat ∧ 0 < c'.pos.toNat := by
  have hlt := refill_pos_lt h0 hp
  refine ⟨_, _, by rw [squeezeByte, byteAt_of_lt (by omega)], ?_, ?_⟩ <;>
    · show _ ; simp only [toNat_add_one_of_lt hlt]; omega

/-- The squeeze loop completes inside the block and gives n bytes. -/
theorem squeezeBytes_ok {rb : BitVec 8} (h0 : 0 < rb.toNat) (hr : rb.toNat ≤ 200) (n : Nat) :
    ∀ c : Cursor, c.pos.toNat ≤ rb.toNat →
      ∃ o c', squeezeBytes rb n c = .ok (o, c') ∧ o.length = n ∧ c'.pos.toNat ≤ rb.toNat := by
  induction n with
  | zero => intro c hc; exact ⟨[], c, rfl, rfl, hc⟩
  | succ n ih =>
    intro c hc
    obtain ⟨b, c1, h1, hle, -⟩ := squeezeByte_ok h0 hc hr
    obtain ⟨bs, c2, h2, hlen, hle2⟩ := ih c1 hle
    exact ⟨b :: bs, c2, by rw [squeezeBytes, h1]; simp only [h2], by simp [hlen], hle2⟩

/-- Squeezing m + n bytes is squeezing m and then n. -/
theorem squeezeBytes_add (rb : BitVec 8) (m n : Nat) :
    ∀ c : Cursor, squeezeBytes rb (m + n) c =
      match squeezeBytes rb m c with
      | .error f => .error f
      | .ok (o1, c1) =>
        match squeezeBytes rb n c1 with
        | .error f => .error f
        | .ok (o2, c2) => .ok (o1 ++ o2, c2) := by
  induction m with
  | zero =>
    intro c
    simp only [Nat.zero_add, squeezeBytes]
    cases squeezeBytes rb n c <;> rfl
  | succ m ih =>
    intro c
    rw [Nat.succ_add, squeezeBytes]
    conv_rhs => rw [squeezeBytes]
    cases h1 : squeezeByte rb c with
    | error f => rfl
    | ok bc =>
      simp only [ih bc.2]
      cases squeezeBytes rb m bc.2 with
      | error f => rfl
      | ok oc =>
        simp only
        cases squeezeBytes rb n oc.2 <;> rfl

/-! ## Padding -/

/-- The bit loop completes when every position is a bit of the state. -/
theorem xorBits_ok (Q : List Nat) : ∀ S : Sponge, (∀ q ∈ Q, q < 1600) → ∃ S', xorBits S Q = .ok S' := by
  induction Q with
  | nil => intro S _; exact ⟨S, rfl⟩
  | cons q rest ih =>
    intro S h
    have hq := h q (by simp)
    obtain ⟨S', hS'⟩ := ih (S.set (q / 8) (S[q / 8] ^^^ 1#8 <<< (q % 8))) fun x hx => h x (by simp [hx])
    exact ⟨S', by rw [xorBits, xorByte_of_lt (by omega)]; exact hS'⟩

theorem mem_blockPositions {r blk q : Nat} {Q : List Nat} (h : q ∈ blockPositions r blk Q) : q < r := by
  simp only [blockPositions, List.mem_map, List.mem_filter, decide_eq_true_eq] at h
  obtain ⟨p, ⟨-, h1, h2⟩, rfl⟩ := h
  rw [Nat.add_mul, Nat.one_mul] at h2
  omega

/-- The tail loop completes when the rate is at most the state. -/
theorem padBlocks_ok {r : Nat} (hr : r ≤ 1600) (Q : List Nat) (n : Nat) :
    ∀ (blk : Nat) (S : Sponge), ∃ S', padBlocks r Q n blk S = .ok S' := by
  induction n with
  | zero => intro blk S; exact ⟨S, rfl⟩
  | succ n ih =>
    intro blk S
    obtain ⟨S1, h1⟩ := xorBits_ok (blockPositions r blk Q) S fun q hq =>
      Nat.lt_of_lt_of_le (mem_blockPositions hq) hr
    obtain ⟨S2, h2⟩ := ih (blk + 1) (keccakF S1)
    exact ⟨S2, by rw [padBlocks, h1]; exact h2⟩

/-- PadAndPermute completes on every legal rate. -/
theorem padAndPermute_ok {t : BitVec 3} {v : Byte} {s : State} (h0 : 0 < s.rateBits.toNat)
    (hr : s.rateBits.toNat ≤ 1600) : ∃ S, padAndPermute t v s = .ok S := by
  simp only [padAndPermute, if_neg (Nat.ne_of_gt h0)]
  exact padBlocks_ok hr _ _ _ _

end Sys2Proof.Machine
end

