-- ==== Sys2Proof/Laws/Decode.lean ====
section
/-! SUPPORT. What the decoder's and the encoder's parts do (spec/30_encoding.md R81 to R94). -/

namespace Sys2Proof

theorem hasLength_iff (p : List Byte) : ∀ n : Nat, hasLength p n = true ↔ p.length = n := by
  induction p with
  | nil => intro n; cases n <;> simp [hasLength]
  | cons b rest ih => intro n; cases n <;> simp [hasLength, ih]

theorem withoutPayload_eq_command {p : List Byte} {i j : Instr} :
    withoutPayload p i = .command j ↔ p = [] ∧ i = j := by
  cases p <;> simp [withoutPayload]

theorem withoutPayload_ne_illegal (p : List Byte) (i : Instr) : withoutPayload p i ≠ .illegal := by
  cases p <;> simp [withoutPayload]

theorem withoutPayload_eq_length {p : List Byte} {i : Instr} : withoutPayload p i = .length ↔ p ≠ [] := by
  cases p <;> simp [withoutPayload]

@[simp] theorem opcodeOf_code (op : Opcode) : opcodeOf op.code = some op := by
  cases op <;> rfl

theorem code_of_opcodeOf {c : BitVec 8} {op : Opcode} (h : opcodeOf c = some op) : op.code = c := by
  revert h op
  revert c
  decide +kernel

@[simp] theorem variantOf_code (v : Variant) : variantOf v.code = some v := by
  cases v <;> rfl

theorem code_of_variantOf {c : BitVec 4} {v : Variant} (h : variantOf c = some v) : v.code = c := by
  revert h v
  revert c
  decide +kernel

@[simp] theorem domainOf_code (d : Domain) : domainOf d.code = some d := by
  cases d <;> rfl

theorem code_of_domainOf {c : BitVec 2} {d : Domain} (h : domainOf c = some d) : d.code = c := by
  revert h d
  revert c
  decide +kernel

/-- Bit i of `cmd[hi:lo]` is bit lo + i of the word (R10). -/
theorem getLsbD_field (cmd : Word) (hi lo i : Nat) :
    (field cmd hi lo).getLsbD i = (decide (i < hi - lo + 1) && cmd.getLsbD (lo + i)) := by
  simp [field, BitVec.extractLsb]

/-- The field at [lo+n-1:lo] of a word whose bits there are those of x, is x. -/
theorem field_eq_of_bits {cmd : Word} {hi lo : Nat} {x : BitVec (hi - lo + 1)}
    (h : ∀ i < hi - lo + 1, cmd.getLsbD (lo + i) = x.getLsbD i) : field cmd hi lo = x := by
  apply BitVec.eq_of_getLsbD_eq
  intro i hi'
  rw [getLsbD_field, decide_eq_true hi', Bool.true_and, h i hi']

end Sys2Proof
end

