-- ==== Sys2Proof/Laws/State.lean ====
section
/-! SUPPORT. One lemma per field of State per shared update, each true by definition, so that no later proof
unfolds a record update. -/

namespace Sys2Proof.Machine

/-! ## failClosed (R222) -/

@[simp] theorem failClosed_sponge (e : ErrCode) (s : State) : (failClosed e s).sponge = s.sponge := rfl
@[simp] theorem failClosed_phase (e : ErrCode) (s : State) : (failClosed e s).phase = s.phase := rfl
@[simp] theorem failClosed_absOff (e : ErrCode) (s : State) : (failClosed e s).absOff = s.absOff := rfl
@[simp] theorem failClosed_sqzPos (e : ErrCode) (s : State) : (failClosed e s).sqzPos = s.sqzPos := rfl
@[simp] theorem failClosed_capacity (e : ErrCode) (s : State) : (failClosed e s).capacity = s.capacity := rfl
@[simp] theorem failClosed_rateBits (e : ErrCode) (s : State) : (failClosed e s).rateBits = s.rateBits := rfl
@[simp] theorem failClosed_rateBytes (e : ErrCode) (s : State) : (failClosed e s).rateBytes = s.rateBytes := rfl
@[simp] theorem failClosed_hashSize (e : ErrCode) (s : State) : (failClosed e s).hashSize = s.hashSize := rfl
@[simp] theorem failClosed_dom (e : ErrCode) (s : State) : (failClosed e s).dom = s.dom := rfl
@[simp] theorem failClosed_suffix (e : ErrCode) (s : State) : (failClosed e s).suffix = s.suffix := rfl
@[simp] theorem failClosed_suffixLen (e : ErrCode) (s : State) : (failClosed e s).suffixLen = s.suffixLen := rfl
@[simp] theorem failClosed_variant (e : ErrCode) (s : State) : (failClosed e s).variant = s.variant := rfl
@[simp] theorem failClosed_xof (e : ErrCode) (s : State) : (failClosed e s).xof = s.xof := rfl
@[simp] theorem failClosed_lastErr (e : ErrCode) (s : State) : (failClosed e s).lastErr = e.code := rfl
@[simp] theorem failClosed_errSeen (e : ErrCode) (s : State) : (failClosed e s).errSeen = s.errSeen ||| 1#8 <<< e.code.toNat := rfl
@[simp] theorem failClosed_result (e : ErrCode) (s : State) : (failClosed e s).result = 0 := rfl
@[simp] theorem failClosed_out (e : ErrCode) (s : State) : (failClosed e s).out = [] := rfl
@[simp] theorem failClosed_inbox (e : ErrCode) (s : State) : (failClosed e s).inbox = s.inbox := rfl
@[simp] theorem failClosed_outbox (e : ErrCode) (s : State) : (failClosed e s).outbox = s.outbox := rfl

/-! ## complete (R36, R37) -/

@[simp] theorem complete_sponge (r : Word) (o : List Byte) (s : State) : (complete r o s).sponge = s.sponge := rfl
@[simp] theorem complete_phase (r : Word) (o : List Byte) (s : State) : (complete r o s).phase = s.phase := rfl
@[simp] theorem complete_absOff (r : Word) (o : List Byte) (s : State) : (complete r o s).absOff = s.absOff := rfl
@[simp] theorem complete_sqzPos (r : Word) (o : List Byte) (s : State) : (complete r o s).sqzPos = s.sqzPos := rfl
@[simp] theorem complete_capacity (r : Word) (o : List Byte) (s : State) : (complete r o s).capacity = s.capacity := rfl
@[simp] theorem complete_rateBits (r : Word) (o : List Byte) (s : State) : (complete r o s).rateBits = s.rateBits := rfl
@[simp] theorem complete_rateBytes (r : Word) (o : List Byte) (s : State) : (complete r o s).rateBytes = s.rateBytes := rfl
@[simp] theorem complete_hashSize (r : Word) (o : List Byte) (s : State) : (complete r o s).hashSize = s.hashSize := rfl
@[simp] theorem complete_dom (r : Word) (o : List Byte) (s : State) : (complete r o s).dom = s.dom := rfl
@[simp] theorem complete_suffix (r : Word) (o : List Byte) (s : State) : (complete r o s).suffix = s.suffix := rfl
@[simp] theorem complete_suffixLen (r : Word) (o : List Byte) (s : State) : (complete r o s).suffixLen = s.suffixLen := rfl
@[simp] theorem complete_variant (r : Word) (o : List Byte) (s : State) : (complete r o s).variant = s.variant := rfl
@[simp] theorem complete_xof (r : Word) (o : List Byte) (s : State) : (complete r o s).xof = s.xof := rfl
@[simp] theorem complete_lastErr (r : Word) (o : List Byte) (s : State) : (complete r o s).lastErr = 0 := rfl
@[simp] theorem complete_errSeen (r : Word) (o : List Byte) (s : State) : (complete r o s).errSeen = s.errSeen := rfl
@[simp] theorem complete_result (r : Word) (o : List Byte) (s : State) : (complete r o s).result = r := rfl
@[simp] theorem complete_out (r : Word) (o : List Byte) (s : State) : (complete r o s).out = o := rfl
@[simp] theorem complete_inbox (r : Word) (o : List Byte) (s : State) : (complete r o s).inbox = s.inbox := rfl
@[simp] theorem complete_outbox (r : Word) (o : List Byte) (s : State) : (complete r o s).outbox = s.outbox := rfl

/-! ## loadParams (R141, R144) -/

@[simp] theorem loadParams_sponge (cap : BitVec 11) (h : BitVec 20) (d : Domain) (v : BitVec 4) (s : State) : (loadParams cap h d v s).sponge = s.sponge := rfl
@[simp] theorem loadParams_phase (cap : BitVec 11) (h : BitVec 20) (d : Domain) (v : BitVec 4) (s : State) : (loadParams cap h d v s).phase = .configured := rfl
@[simp] theorem loadParams_absOff (cap : BitVec 11) (h : BitVec 20) (d : Domain) (v : BitVec 4) (s : State) : (loadParams cap h d v s).absOff = s.absOff := rfl
@[simp] theorem loadParams_sqzPos (cap : BitVec 11) (h : BitVec 20) (d : Domain) (v : BitVec 4) (s : State) : (loadParams cap h d v s).sqzPos = s.sqzPos := rfl
@[simp] theorem loadParams_capacity (cap : BitVec 11) (h : BitVec 20) (d : Domain) (v : BitVec 4) (s : State) : (loadParams cap h d v s).capacity = cap := rfl
@[simp] theorem loadParams_rateBits (cap : BitVec 11) (h : BitVec 20) (d : Domain) (v : BitVec 4) (s : State) : (loadParams cap h d v s).rateBits = BitVec.ofNat 11 (1600 - cap.toNat) := rfl
@[simp] theorem loadParams_rateBytes (cap : BitVec 11) (h : BitVec 20) (d : Domain) (v : BitVec 4) (s : State) : (loadParams cap h d v s).rateBytes = BitVec.ofNat 8 ((1600 - cap.toNat) / 8) := rfl
@[simp] theorem loadParams_hashSize (cap : BitVec 11) (h : BitVec 20) (d : Domain) (v : BitVec 4) (s : State) : (loadParams cap h d v s).hashSize = h := rfl
@[simp] theorem loadParams_dom (cap : BitVec 11) (h : BitVec 20) (d : Domain) (v : BitVec 4) (s : State) : (loadParams cap h d v s).dom = d.code := rfl
@[simp] theorem loadParams_suffix (cap : BitVec 11) (h : BitVec 20) (d : Domain) (v : BitVec 4) (s : State) : (loadParams cap h d v s).suffix = domainSuffix d := rfl
@[simp] theorem loadParams_suffixLen (cap : BitVec 11) (h : BitVec 20) (d : Domain) (v : BitVec 4) (s : State) : (loadParams cap h d v s).suffixLen = domainSuffixLen d := rfl
@[simp] theorem loadParams_variant (cap : BitVec 11) (h : BitVec 20) (d : Domain) (v : BitVec 4) (s : State) : (loadParams cap h d v s).variant = v := rfl
@[simp] theorem loadParams_xof (cap : BitVec 11) (h : BitVec 20) (d : Domain) (v : BitVec 4) (s : State) : (loadParams cap h d v s).xof = domainXof d := rfl
@[simp] theorem loadParams_lastErr (cap : BitVec 11) (h : BitVec 20) (d : Domain) (v : BitVec 4) (s : State) : (loadParams cap h d v s).lastErr = s.lastErr := rfl
@[simp] theorem loadParams_errSeen (cap : BitVec 11) (h : BitVec 20) (d : Domain) (v : BitVec 4) (s : State) : (loadParams cap h d v s).errSeen = s.errSeen := rfl
@[simp] theorem loadParams_result (cap : BitVec 11) (h : BitVec 20) (d : Domain) (v : BitVec 4) (s : State) : (loadParams cap h d v s).result = s.result := rfl
@[simp] theorem loadParams_out (cap : BitVec 11) (h : BitVec 20) (d : Domain) (v : BitVec 4) (s : State) : (loadParams cap h d v s).out = s.out := rfl
@[simp] theorem loadParams_inbox (cap : BitVec 11) (h : BitVec 20) (d : Domain) (v : BitVec 4) (s : State) : (loadParams cap h d v s).inbox = s.inbox := rfl
@[simp] theorem loadParams_outbox (cap : BitVec 11) (h : BitVec 20) (d : Domain) (v : BitVec 4) (s : State) : (loadParams cap h d v s).outbox = s.outbox := rfl

/-! ## respond (R64) -/

@[simp] theorem respond_sponge (r : Response) (s : State) : (respond r s).sponge = s.sponge := rfl
@[simp] theorem respond_phase (r : Response) (s : State) : (respond r s).phase = s.phase := rfl
@[simp] theorem respond_absOff (r : Response) (s : State) : (respond r s).absOff = s.absOff := rfl
@[simp] theorem respond_sqzPos (r : Response) (s : State) : (respond r s).sqzPos = s.sqzPos := rfl
@[simp] theorem respond_capacity (r : Response) (s : State) : (respond r s).capacity = s.capacity := rfl
@[simp] theorem respond_rateBits (r : Response) (s : State) : (respond r s).rateBits = s.rateBits := rfl
@[simp] theorem respond_rateBytes (r : Response) (s : State) : (respond r s).rateBytes = s.rateBytes := rfl
@[simp] theorem respond_hashSize (r : Response) (s : State) : (respond r s).hashSize = s.hashSize := rfl
@[simp] theorem respond_dom (r : Response) (s : State) : (respond r s).dom = s.dom := rfl
@[simp] theorem respond_suffix (r : Response) (s : State) : (respond r s).suffix = s.suffix := rfl
@[simp] theorem respond_suffixLen (r : Response) (s : State) : (respond r s).suffixLen = s.suffixLen := rfl
@[simp] theorem respond_variant (r : Response) (s : State) : (respond r s).variant = s.variant := rfl
@[simp] theorem respond_xof (r : Response) (s : State) : (respond r s).xof = s.xof := rfl
@[simp] theorem respond_lastErr (r : Response) (s : State) : (respond r s).lastErr = s.lastErr := rfl
@[simp] theorem respond_errSeen (r : Response) (s : State) : (respond r s).errSeen = s.errSeen := rfl
@[simp] theorem respond_result (r : Response) (s : State) : (respond r s).result = s.result := rfl
@[simp] theorem respond_out (r : Response) (s : State) : (respond r s).out = s.out := rfl
@[simp] theorem respond_inbox (r : Response) (s : State) : (respond r s).inbox = s.inbox := rfl
@[simp] theorem respond_outbox (r : Response) (s : State) : (respond r s).outbox = s.outbox ++ [r] := rfl

/-! ## hardwareReset (R250) -/

@[simp] theorem hardwareReset_sponge (s : State) : (hardwareReset s).sponge = State.reset.sponge := rfl
@[simp] theorem hardwareReset_phase (s : State) : (hardwareReset s).phase = State.reset.phase := rfl
@[simp] theorem hardwareReset_absOff (s : State) : (hardwareReset s).absOff = State.reset.absOff := rfl
@[simp] theorem hardwareReset_sqzPos (s : State) : (hardwareReset s).sqzPos = State.reset.sqzPos := rfl
@[simp] theorem hardwareReset_capacity (s : State) : (hardwareReset s).capacity = State.reset.capacity := rfl
@[simp] theorem hardwareReset_rateBits (s : State) : (hardwareReset s).rateBits = State.reset.rateBits := rfl
@[simp] theorem hardwareReset_rateBytes (s : State) : (hardwareReset s).rateBytes = State.reset.rateBytes := rfl
@[simp] theorem hardwareReset_hashSize (s : State) : (hardwareReset s).hashSize = State.reset.hashSize := rfl
@[simp] theorem hardwareReset_dom (s : State) : (hardwareReset s).dom = State.reset.dom := rfl
@[simp] theorem hardwareReset_suffix (s : State) : (hardwareReset s).suffix = State.reset.suffix := rfl
@[simp] theorem hardwareReset_suffixLen (s : State) : (hardwareReset s).suffixLen = State.reset.suffixLen := rfl
@[simp] theorem hardwareReset_variant (s : State) : (hardwareReset s).variant = State.reset.variant := rfl
@[simp] theorem hardwareReset_xof (s : State) : (hardwareReset s).xof = State.reset.xof := rfl
@[simp] theorem hardwareReset_lastErr (s : State) : (hardwareReset s).lastErr = State.reset.lastErr := rfl
@[simp] theorem hardwareReset_errSeen (s : State) : (hardwareReset s).errSeen = State.reset.errSeen := rfl
@[simp] theorem hardwareReset_result (s : State) : (hardwareReset s).result = State.reset.result := rfl
@[simp] theorem hardwareReset_out (s : State) : (hardwareReset s).out = State.reset.out := rfl
@[simp] theorem hardwareReset_inbox (s : State) : (hardwareReset s).inbox = s.inbox := rfl
@[simp] theorem hardwareReset_outbox (s : State) : (hardwareReset s).outbox = s.outbox := rfl

/-! ## deliverTableWord: only the inbox changes -/

@[simp] theorem deliverTableWord_sponge (n w : Nat) (s : State) : (deliverTableWord n w s).sponge = s.sponge := rfl
@[simp] theorem deliverTableWord_phase (n w : Nat) (s : State) : (deliverTableWord n w s).phase = s.phase := rfl
@[simp] theorem deliverTableWord_absOff (n w : Nat) (s : State) : (deliverTableWord n w s).absOff = s.absOff := rfl
@[simp] theorem deliverTableWord_sqzPos (n w : Nat) (s : State) : (deliverTableWord n w s).sqzPos = s.sqzPos := rfl
@[simp] theorem deliverTableWord_capacity (n w : Nat) (s : State) : (deliverTableWord n w s).capacity = s.capacity := rfl
@[simp] theorem deliverTableWord_rateBits (n w : Nat) (s : State) : (deliverTableWord n w s).rateBits = s.rateBits := rfl
@[simp] theorem deliverTableWord_rateBytes (n w : Nat) (s : State) : (deliverTableWord n w s).rateBytes = s.rateBytes := rfl
@[simp] theorem deliverTableWord_hashSize (n w : Nat) (s : State) : (deliverTableWord n w s).hashSize = s.hashSize := rfl
@[simp] theorem deliverTableWord_dom (n w : Nat) (s : State) : (deliverTableWord n w s).dom = s.dom := rfl
@[simp] theorem deliverTableWord_suffix (n w : Nat) (s : State) : (deliverTableWord n w s).suffix = s.suffix := rfl
@[simp] theorem deliverTableWord_suffixLen (n w : Nat) (s : State) : (deliverTableWord n w s).suffixLen = s.suffixLen := rfl
@[simp] theorem deliverTableWord_variant (n w : Nat) (s : State) : (deliverTableWord n w s).variant = s.variant := rfl
@[simp] theorem deliverTableWord_xof (n w : Nat) (s : State) : (deliverTableWord n w s).xof = s.xof := rfl
@[simp] theorem deliverTableWord_lastErr (n w : Nat) (s : State) : (deliverTableWord n w s).lastErr = s.lastErr := rfl
@[simp] theorem deliverTableWord_errSeen (n w : Nat) (s : State) : (deliverTableWord n w s).errSeen = s.errSeen := rfl
@[simp] theorem deliverTableWord_result (n w : Nat) (s : State) : (deliverTableWord n w s).result = s.result := rfl
@[simp] theorem deliverTableWord_out (n w : Nat) (s : State) : (deliverTableWord n w s).out = s.out := rfl
@[simp] theorem deliverTableWord_inbox (n w : Nat) (s : State) : (deliverTableWord n w s).inbox = .command (BitVec.ofNat 64 (w % 2 ^ n)) (tablePayload (BitVec.ofNat 64 (w % 2 ^ n))) :: s.inbox := rfl
@[simp] theorem deliverTableWord_outbox (n w : Nat) (s : State) : (deliverTableWord n w s).outbox = s.outbox := rfl

end Sys2Proof.Machine
end

