-- ==== Sys2Proof/Laws/Exec.lean ====
section
/-! SUPPORT. Inversion: the next states each command can answer, with the checks that lead to them. The later
proofs cite these and do not unfold `exec`. -/

namespace Sys2Proof.Machine

/-! ## The checks on operands -/

/-- The accepted capacities, as R145 lists them. -/
theorem capacityAccepted_iff {cap : BitVec 11} :
    capacityAccepted cap = true ↔ cap.toNat < 1600 ∧ cap.toNat % 8 = 0 := by
  simp [capacityAccepted]

/-- The accepted output lengths (R144, R147). -/
theorem outputLengthAccepted_iff {b : BitVec 20} :
    outputLengthAccepted b = true ↔ 1 ≤ b.toNat ∧ b.toNat ≤ 8 * Config.maxOutBytes := by
  simp [outputLengthAccepted]

/-- The phases in which SET_OUTLEN is legal (R147). -/
theorem setOutlenPhase_iff {p : Phase} : setOutlenPhase p = true ↔ p = .configured ∨ p = .absorbing := by
  cases p <;> simp [setOutlenPhase]

/-! ## Inversion -/

/-- CFG_VARIANT always completes (R141). -/
theorem exec_cfgVariant (v : Variant) (s : State) :
    exec (.cfgVariant v) s =
      .next (complete 0 [] (loadParams (variantCapacity v) (variantHashSize v) (variantDomain v) v.code s)) := rfl

/-- PERMUTE always completes (R125). -/
theorem exec_permute (s : State) :
    exec .permute s = .next (complete 0 [] { s with sponge := keccakF s.sponge }) := rfl

theorem exec_cfgVariant_next {v : Variant} {s t : State} (hx : exec (.cfgVariant v) s = .next t) :
    t = complete 0 [] (loadParams (variantCapacity v) (variantHashSize v) (variantDomain v) v.code s) := by
  rw [exec_cfgVariant] at hx
  injection hx with hx
  exact hx.symm

theorem exec_permute_next {s t : State} (hx : exec .permute s = .next t) :
    t = complete 0 [] { s with sponge := keccakF s.sponge } := by
  rw [exec_permute] at hx
  injection hx with hx
  exact hx.symm

theorem exec_cfgExplicit_next {cap : BitVec 11} {d : Domain} {h : BitVec 20} {s t : State}
    (hx : exec (.cfgExplicit cap d h) s = .next t) :
    (capacityAccepted cap = true ∧ outputLengthAccepted h = true ∧
        t = complete 0 [] (loadParams cap h d explicitVariant s)) ∨
      ((capacityAccepted cap = false ∨ outputLengthAccepted h = false) ∧ t = failClosed .config s) := by
  simp only [exec, execCfgExplicit, failed] at hx
  split at hx
  · cases hx; exact .inr ⟨.inl ‹_›, rfl⟩
  · split at hx
    · cases hx; exact .inr ⟨.inr ‹_›, rfl⟩
    · cases hx; exact .inl ⟨by simp_all, by simp_all, rfl⟩

theorem exec_setOutlen_next {b : BitVec 20} {s t : State} (hx : exec (.setOutlen b) s = .next t) :
    (setOutlenPhase s.phase = true ∧ s.xof ≠ 0 ∧ outputLengthAccepted b = true ∧
        t = complete 1 [] { s with hashSize := b }) ∨
      (setOutlenPhase s.phase = false ∧ t = failClosed .misuse s) ∨
      (setOutlenPhase s.phase = true ∧ s.xof = 0 ∧ t = failClosed .notXof s) ∨
      (setOutlenPhase s.phase = true ∧ s.xof ≠ 0 ∧ outputLengthAccepted b = false ∧ t = failClosed .config s) := by
  simp only [exec, execSetOutlen, failed] at hx
  split at hx
  · cases hx; exact .inr (.inl ⟨‹_›, rfl⟩)
  · have hp : setOutlenPhase s.phase = true := by simp_all
    split at hx
    · cases hx; exact .inr (.inr (.inl ⟨hp, ‹_›, rfl⟩))
    · split at hx
      · cases hx; exact .inr (.inr (.inr ⟨hp, ‹_›, ‹_›, rfl⟩))
      · cases hx; exact .inl ⟨hp, ‹_›, by simp_all, rfl⟩

theorem exec_init_next {s t : State} (hx : exec .init s = .next t) :
    (s.phase ≠ .unconfigured ∧
        t = complete 0 [] { s with sponge := Sponge.zero, absOff := 0, sqzPos := 0, phase := .absorbing }) ∨
      (s.phase = .unconfigured ∧ t = failClosed .misuse s) := by
  simp only [exec, execInit, failed] at hx
  split at hx
  · cases hx; exact .inr ⟨‹_›, rfl⟩
  · cases hx; exact .inl ⟨‹_›, rfl⟩

theorem exec_absorb_next {p : List Byte} {s t : State} (hx : exec (.absorb p) s = .next t) :
    (s.phase = .absorbing ∧ ∃ c, absorbBytes s.rateBytes p ⟨s.sponge, s.absOff⟩ = .ok c ∧
        t = complete (BitVec.ofNat 64 p.length) [] { s with sponge := c.sponge, absOff := c.pos }) ∨
      (s.phase ≠ .absorbing ∧ t = failClosed .misuse s) := by
  simp only [exec, execAbsorb, failed] at hx
  split at hx
  · split at hx
    · cases hx
    · cases hx; exact .inl ⟨‹_›, _, ‹_›, rfl⟩
  · cases hx; exact .inr ⟨‹_›, rfl⟩

theorem exec_squeeze_next {n : BitVec 16} {s t : State} (hx : exec (.squeeze n) s = .next t) :
    (s.phase = .squeezing ∧ ∃ o c, squeezeBytes s.rateBytes n.toNat ⟨s.sponge, s.sqzPos⟩ = .ok (o, c) ∧
        t = complete (n.setWidth 64) o { s with sponge := c.sponge, sqzPos := c.pos }) ∨
      (s.phase ≠ .squeezing ∧ t = failClosed .misuse s) := by
  simp only [exec, execSqueeze, failed] at hx
  split at hx
  · split at hx
    · cases hx
    · cases hx; exact .inl ⟨‹_›, _, _, ‹_›, rfl⟩
  · cases hx; exact .inr ⟨‹_›, rfl⟩

theorem exec_finalize_next {tb : BitVec 3} {v : Byte} {s t : State} (hx : exec (.finalize tb v) s = .next t) :
    (s.phase = .absorbing ∧ ∃ S o c, padAndPermute tb v s = .ok S ∧
        squeezeBytes s.rateBytes (ceilDiv s.hashSize.toNat 8) ⟨S, 0⟩ = .ok (o, c) ∧
        t = complete (BitVec.ofNat 64 (ceilDiv s.hashSize.toNat 8)) (maskOutput s.hashSize.toNat o)
          { s with sponge := c.sponge, absOff := 0, sqzPos := c.pos, phase := finalPhase s.xof s.hashSize }) ∨
      (s.phase ≠ .absorbing ∧ t = failClosed .misuse s) := by
  simp only [exec, execFinalize, failed] at hx
  split at hx
  · split at hx
    · cases hx
    · split at hx
      · cases hx
      · cases hx; exact .inl ⟨‹_›, _, _, _, ‹_›, ‹_›, rfl⟩
  · cases hx; exact .inr ⟨‹_›, rfl⟩

end Sys2Proof.Machine
end

