-- ==== Sys2Proof/Laws/PerInstr.lean ====
section
/-! SUPPORT. Facts about every instruction as syntax, one lemma per constructor: an encoded word has the match and
mask of its row of the opcode table (spec/30_encoding.md R92). -/

namespace Sys2Proof.Laws.RowMatch

/-- The encoded word agrees with its row's match under its row's mask, so every reserved bit is 0 (R92). -/
def Statement (i : Instr) : Prop := encodeWord i &&& i.opcode.mask = i.opcode.code.setWidth 64

theorem cfgVariant (v : Variant) : Statement (.cfgVariant v) := by
  cases v <;> rfl

theorem cfgExplicit (cap : BitVec 11) (dom : Domain) (hsize : BitVec 20) : Statement (.cfgExplicit cap dom hsize) := by
  unfold Statement
  apply BitVec.eq_of_getLsbD_eq
  intro i hi
  cases dom <;> interval_cases i <;>
    simp [encodeWord, Instr.opcode, Opcode.mask, Opcode.code, Domain.code]

theorem setOutlen (bits : BitVec 20) : Statement (.setOutlen bits) := by
  unfold Statement
  apply BitVec.eq_of_getLsbD_eq
  intro i hi
  interval_cases i <;> simp [encodeWord, Instr.opcode, Opcode.mask, Opcode.code]

theorem init : Statement .init := rfl

theorem absorb (payload : List Byte) : Statement (.absorb payload) := by
  unfold Statement
  apply BitVec.eq_of_getLsbD_eq
  intro i hi
  interval_cases i <;> simp [encodeWord, Instr.opcode, Opcode.mask, Opcode.code]

theorem finalize (tbits : BitVec 3) (tbyte : Byte) : Statement (.finalize tbits tbyte) := by
  unfold Statement
  apply BitVec.eq_of_getLsbD_eq
  intro i hi
  interval_cases i <;> simp [encodeWord, Instr.opcode, Opcode.mask, Opcode.code]

theorem squeeze (n : BitVec 16) : Statement (.squeeze n) := by
  unfold Statement
  apply BitVec.eq_of_getLsbD_eq
  intro i hi
  interval_cases i <;> simp [encodeWord, Instr.opcode, Opcode.mask, Opcode.code]

theorem permute : Statement .permute := rfl

end Sys2Proof.Laws.RowMatch
end

