-- ==== Sys2Proof/Laws/Step.lean ====
section
/-! SUPPORT. What one step does with the host's oldest pending move (spec/70_reset_and_hazards.md R260). -/

namespace Sys2Proof.Machine

theorem step_of_inbox_cons {s : State} {m : HostMove} {rest : List HostMove} (h : s.inbox = m :: rest) :
    step s = takeMove m { s with inbox := rest } := by
  simp only [step, serve, h]

theorem runCommand_illegal {cmd : Word} {p : List Byte} (s : State) (h : decode cmd p = .illegal) :
    runCommand cmd p s = .next (failClosed .illegal s) := by
  simp only [runCommand, h, failed]

theorem runCommand_length {cmd : Word} {p : List Byte} (s : State) (h : decode cmd p = .length) :
    runCommand cmd p s = .next (failClosed .length s) := by
  simp only [runCommand, h, failed]

theorem runCommand_command {cmd : Word} {p : List Byte} {i : Instr} (s : State) (h : decode cmd p = .command i) :
    runCommand cmd p s = exec i s := by
  simp only [runCommand, h]

/-- An answered command adds exactly one response and changes nothing else. -/
theorem answerCommand_next {o : Host.Outcome State Fault Refusal} {t : State} (h : answerCommand o = .next t) :
    ∃ s, o = .next s ∧ t = respond (commandResponse s) s := by
  cases o with
  | next s => cases h; exact ⟨s, rfl, rfl⟩
  | fault f => cases h
  | refused r => cases h

/-- All that a step can answer: with no pending move the state itself; for a command its response after the
outcome of `runCommand`; for a read its response; for a reset the reset state. -/
theorem step_next {s t : State} (h : step s = .next t) :
    (s.inbox = [] ∧ t = s) ∨
    (∃ cmd p rest s1, s.inbox = .command cmd p :: rest ∧ runCommand cmd p { s with inbox := rest } = .next s1 ∧
        t = respond (commandResponse s1) s1) ∨
    (∃ a rest, s.inbox = .read a :: rest ∧
        t = respond (.read (readRegister s a)) { s with inbox := rest }) ∨
    (∃ rest, s.inbox = .reset :: rest ∧ t = hardwareReset { s with inbox := rest }) := by
  cases hin : s.inbox with
  | nil => simp only [step, serve, hin] at h; cases h; exact .inl ⟨rfl, rfl⟩
  | cons m rest =>
    rw [step_of_inbox_cons hin] at h
    cases m with
    | command cmd p =>
      obtain ⟨s1, h1, h2⟩ := answerCommand_next h
      exact .inr (.inl ⟨cmd, p, rest, s1, rfl, h1, h2⟩)
    | read a => cases h; exact .inr (.inr (.inl ⟨a, rest, rfl, rfl⟩))
    | reset => cases h; exact .inr (.inr (.inr ⟨rest, rfl, rfl⟩))

end Sys2Proof.Machine
end

