-- ==== Sys2Proof/Tests/Slice0.lean ====
section
/-! SUPPORT. The model's own tests. Expected values come from the spec: the encodings of spec/30_encoding.md and the
vectors of spec/95_test_vectors.md (V…, P…). The witnesses at the end show states and operands that meet the hypotheses
of the statements in Certificates/Slice0/Obligations.lean. -/

open Sys2Proof
open Sys2Proof.Machine
open Sys2Proof.Claims

namespace Sys2Proof.Tests

/-! ## Helpers -/

/-- The next state, if there is one. -/
def nextOf : Host.Outcome State Fault Refusal → Option State
  | .next s => some s
  | .fault _ => none
  | .refused _ => none

/-- STATUS after a command, if it completes or fails closed. -/
def statusAfter (i : Instr) (s : State) : Option Word := (nextOf (exec i s)).map statusImage

/-- STATUS after a transaction. -/
def statusAfterWord (cmd : Word) (p : List Byte) (s : State) : Option Word :=
  (nextOf (runCommand cmd p s)).map statusImage

/-- A state with a parameter set loaded, in a phase, at an offset in the block. -/
def session (cap : BitVec 11) (h : BitVec 20) (d : Domain) (v : BitVec 4) (p : Phase) (off : BitVec 8) : State :=
  { loadParams cap h d v State.reset with phase := p, absOff := off }

/-- A SHA3-256 session that absorbs, at an offset. -/
def sha256At (off : BitVec 8) : State := session 512 256 .sha3 1 .absorbing off

/-- A SHAKE128 session that absorbs, at an offset. -/
def shake128At (off : BitVec 8) : State := session 256 128 .shake 4 .absorbing off

/-- A SHAKE128 session that gives output, with the cursor at pos. -/
def squeezing128 (pos : BitVec 8) : State := { session 256 128 .shake 4 .squeezing 0 with sqzPos := pos }

/-- A state array with two bytes that are not 0. -/
def marked : Sponge := (Sponge.zero.set 0 0xAB).set 167 0xCD

/-- The lanes whose only bit is bit 0 of lane 0 (V11). -/
def oneBit : Lanes := (Vector.replicate 25 0).set 0 1

/-- The lanes k, value; every other lane 0 (V11). -/
def lanesFrom (kvs : List (Nat × Lane)) : Lanes := Vector.ofFn fun k => (kvs.lookup k.val).getD 0

/-! ## WellFormed: an ill-formed term for each check -/

theorem wellFormed_absorb_zeros (n : Nat) :
    (Instr.absorb (List.replicate n 0)).wellFormed = Nat.ble n Config.maxChunk := by
  simp only [Instr.wellFormed, List.length_replicate]

/-- A payload of 65536 bytes does not fit the field N (R6, R87). -/
theorem test_wellFormed_refuses_long_payload : (Instr.absorb (List.replicate 65536 0)).wellFormed = false :=
  (wellFormed_absorb_zeros 65536).trans (by decide)

/-- 65535 bytes do. -/
theorem test_wellFormed_accepts_full_payload : (Instr.absorb (List.replicate 65535 0)).wellFormed = true :=
  (wellFormed_absorb_zeros 65535).trans (by decide)

/-! ## Decoding: words written out bit by bit from R82 to R88 -/

theorem test_decode_cfgVariant :
    decode 0b0000000000000000000000000000000000000000000000000000_0101_00000001 [] =
      .command (.cfgVariant .shake256) := by decide

/-- V13a: cap = 512, dom = SHAKE, hsize = 8. -/
theorem test_decode_cfgExplicit :
    decode 0b00000000000000000000_00000000000000001000_00_01_0_01000000000_00000010 [] =
      .command (.cfgExplicit 512 .shake 8) := by decide

/-- V13b: 4096 bits. -/
theorem test_decode_setOutlen :
    decode 0b000000000000000000000000000000000000_00000001000000000000_00000011 [] =
      .command (.setOutlen 4096) := by decide

theorem test_decode_init :
    decode 0b00000000000000000000000000000000000000000000000000000000_00000100 [] = .command .init := by decide

theorem test_decode_absorb :
    decode 0b0000000000000000000000000000000000000000_0000000000000011_00000101 [0x61, 0x62, 0x63] =
      .command (.absorb [0x61, 0x62, 0x63]) := by decide

theorem test_decode_finalize :
    decode 0b0000000000000000000000000000000000000000_10000101_00000_110_00000110 [] =
      .command (.finalize 6 0x85) := by decide

theorem test_decode_squeeze :
    decode 0b0000000000000000000000000000000000000000_1000000000000001_00000111 [] =
      .command (.squeeze 32769) := by decide

theorem test_decode_permute :
    decode 0b00000000000000000000000000000000000000000000000000000000_00001000 [] = .command .permute := by decide

/-- P4's word for CFG_EXPLICIT cap=1592, dom=SHAKE, hsize=20. -/
theorem test_encode_cfgExplicit : encodeWord (.cfgExplicit 1592 .shake 20) = 0x0000000014163802 := by decide

/-- P4's word for FINALIZE tbits=3, tbyte=0x05. -/
theorem test_encode_finalize : encodeWord (.finalize 3 0x05) = 0x0000000000050306 := by decide

/-- V18: words that no command has. -/
theorem test_decode_rejects :
    decode 0x0000000000000000 [] = .illegal ∧ decode 0x00000000000000FF [] = .illegal ∧
      decode 0x0000000000000601 [] = .illegal ∧ decode 0x0000000000001101 [] = .illegal ∧
      decode 0x0000000008220002 [] = .illegal ∧ decode 0x00000000081A0002 [] = .illegal ∧
      decode 0x0000000000000806 [] = .illegal ∧ decode 0x0000000000000108 [] = .illegal := by decide

/-- V18: a payload of the wrong length, and ILLEGAL before LENGTH. -/
theorem test_decode_rejects_payload :
    decode 0x0000000000000101 [0x78] = .length ∧ decode 0x0000000000000205 [0x61] = .length ∧
      decode 0x0000000001000105 [0x61, 0x62] = .illegal := by decide

/-- The host's reading of a table row, ABSORB with N = 2. -/
theorem test_decodeTableWord : decodeTableWord 64 0x205 = some (.absorb [0, 0]) ∧ decodeTableWord 64 0x9 = none := by
  decide

/-! ## Configuration -/

/-- V12, SHA3-384. -/
theorem test_cfgVariant_images :
    (nextOf (exec (.cfgVariant .sha3_384) State.reset)).map
      (fun s => (param0Image s, param1Image s, statusImage s)) =
      some (0x0000026803000340, 0x0000000002200180, 0x1) := by decide

/-- V12, SHAKE128. -/
theorem test_cfgVariant_images_shake :
    (nextOf (exec (.cfgVariant .shake128) State.reset)).map
      (fun s => (param0Image s, param1Image s, statusImage s)) =
      some (0x000004A801000540, 0x000000000CF00080, 0x9) := by decide

/-- V13a. -/
theorem test_cfgExplicit_images :
    (nextOf (exec (.cfgExplicit 512 .shake 8) State.reset)).map
      (fun s => (param0Image s, param1Image s, statusImage s)) =
      some (0x0000078802000440, 0x000000000CF00008, 0x9) := by decide

/-- V18: the capacities and lengths that fail, and the nearest that is accepted. -/
theorem test_cfgExplicit_checks :
    [statusAfter (.cfgExplicit 1600 .sha3 256) State.reset, statusAfter (.cfgExplicit 1601 .sha3 256) State.reset,
      statusAfter (.cfgExplicit 516 .sha3 256) State.reset, statusAfter (.cfgExplicit 512 .sha3 0) State.reset,
      statusAfter (.cfgExplicit 512 .sha3 524281) State.reset,
      statusAfter (.cfgExplicit 512 .sha3 524280) State.reset] =
    [some 0x420, some 0x420, some 0x420, some 0x420, some 0x420, some 0x1] := by decide

/-- V13b: 4096 bits for SHAKE128. -/
theorem test_setOutlen_shake :
    (nextOf (exec (.setOutlen 4096) (session 256 128 .shake 4 .configured 0))).map
      (fun s => (s.result, s.hashSize)) = some (1, 4096) := by decide

/-- V13b and V18: NOT_XOF, CONFIG, and MISUSE before both of them. -/
theorem test_setOutlen_errors :
    [statusAfter (.setOutlen 4096) (session 512 256 .sha3 1 .configured 0),
      statusAfter (.setOutlen 0) (session 256 128 .shake 4 .configured 0),
      statusAfter (.setOutlen 0) { session 512 256 .sha3 1 .done 0 with sqzPos := 32 }] =
    [some 0x831, some 0x429, some 0x20001044] := by decide

/-! ## The session -/

/-- R170's example, from a session that had absorbed. -/
theorem test_init_starts_session :
    (nextOf (exec .init { sha256At 5 with sponge := marked })).map
      (fun s => (statusImage s, laneWindow s 0, laneWindow s 20)) = some (0x2, 0, 0) := by decide

/-- V18: INIT in UNCONFIGURED. -/
theorem test_init_needs_parameters : statusAfter .init State.reset = some 0x1040 := by decide

/-- V5: offset, RESULT, STATUS and lane 0 after ABSORB 616263. -/
theorem test_absorb_abc :
    (nextOf (exec (.absorb [0x61, 0x62, 0x63]) (sha256At 0))).map
      (fun s => (s.absOff, s.result, statusImage s, laneWindow s 0)) =
      some (3, 3, 0x30002, 0x0000000000636261) := by decide

/-- R174: the input is XORed in, not copied, and 134 + 1 bytes do not fill the block (V5). -/
theorem test_absorb_xors :
    (nextOf (exec (.absorb [0xFF]) { sha256At 134 with sponge := Sponge.zero.set 134 0x0F })).map
      (fun s => (s.sponge[134], s.absOff)) = some (0xF0, 135) := by decide

/-- V13: 0 bytes and 135 bytes, byte-aligned. -/
theorem test_finalize_tail_byte :
    blockPositions 1088 0 (tailPositions 1088 0 0 0 2 2) = [1087, 2, 1] ∧
      blockPositions 1088 0 (tailPositions 1088 (8 * 135) 0 0 2 2) = [1087, 1082, 1081] := by decide

/-- V14: 1085 and 1087 zero bits of SHA3-256 take two tail blocks. -/
theorem test_finalize_tail_two_blocks :
    tailBlocks 1088 1084 2 = 1 ∧ tailBlocks 1088 1085 2 = 2 ∧
      blockPositions 1088 0 (tailPositions 1088 (8 * 135) 5 0 2 2) = [1087, 1086] ∧
      blockPositions 1088 1 (tailPositions 1088 (8 * 135) 5 0 2 2) = [1087] ∧
      blockPositions 1088 0 (tailPositions 1088 (8 * 135) 7 0 2 2) = [] ∧
      blockPositions 1088 1 (tailPositions 1088 (8 * 135) 7 0 2 2) = [1087, 1, 0] := by decide

/-- V15: the mask of 12 bits and of 252 bits. -/
theorem test_output_mask : maskOutput 12 [0x7F, 0x9C] = [0x7F, 0x0C] ∧ maskOutput 252 [0x4A] = [0x0A] := by decide

/-- V18: SQUEEZE while absorbing. -/
theorem test_squeeze_misuse : statusAfter (.squeeze 1) (shake128At 0) = some 0x104A := by decide

/-- R201: the last byte of the block is given without a permutation, and the cursor stays at RATE_BYTES. -/
theorem test_squeeze_last_byte :
    (nextOf (exec (.squeeze 1) { squeezing128 167 with sponge := marked })).map
      (fun s => (s.out, s.sqzPos, s.sponge[167], s.result)) = some ([0xCD], 168, 0xCD, 1) := by decide

/-! ## The permutation -/

/-- V11: θ on one bit. -/
theorem test_theta_one_bit :
    theta oneBit = lanesFrom [(0, 1), (1, 1), (4, 2), (6, 1), (9, 2), (11, 1), (14, 2), (16, 1), (19, 2), (21, 1),
      (24, 2)] := by decide +kernel

/-- V11: the round on one bit, ι included. -/
theorem test_round_one_bit :
    keccakRound oneBit 1 = lanesFrom [(1, 0x100000000000), (2, 0x8000), (3, 1), (4, 0x100000008000),
      (6, 0x200000200000), (8, 0x200000000000), (9, 0x200000), (10, 2), (11, 0x200), (13, 0x202), (15, 0x10000400),
      (17, 0x400), (18, 0x10000000), (20, 0x10000000000), (22, 0x10000000004), (24, 4)] := by decide +kernel

/-- V2: lane 0 of KeccakF of the zero state. -/
theorem test_permute_golden_lane : (keccakLanes (Vector.replicate 25 0))[0] = 0xF1258F7940E1DDE7 := by decide +kernel

/-! ## Errors, reads and reset -/

/-- V18: an illegal word, a mis-sized payload, a reserved bit while absorbing. -/
theorem test_error_status :
    [statusAfterWord 0x00 [] State.reset,
      statusAfterWord 0x101 [0x78] (session 512 256 .sha3 1 .configured 0),
      statusAfterWord 0x0000000001000105 [0x61] (sha256At 0),
      statusAfterWord 0x0000000000000105 [0x61] { session 512 256 .sha3 1 .done 0 with sqzPos := 32 }] =
    [some 0x210, some 0x2051, some 0x212, some 0x20001044] := by decide

/-- R63: READ at RESULT, at a lane, at a misaligned and at a reserved address. -/
theorem test_read_map :
    [readRegister { State.reset with result := 7, sponge := marked } 0x008,
      readRegister { State.reset with result := 7, sponge := marked } 0x100,
      readRegister { State.reset with result := 7, sponge := marked } 0x1A0,
      readRegister { State.reset with result := 7, sponge := marked } 0x101,
      readRegister { State.reset with result := 7, sponge := marked } 0x1C8] =
    [7, 0xAB, 0xCD00000000000000, 0, 0] := by decide

/-- P1: two steps answer two transactions, in order. -/
theorem test_step_answers :
    (nextOf (step { State.reset with inbox := [.command 0x101 [], .read 0x010] })).map (fun s => (s.inbox, s.outbox)) =
      some ([.read 0x010], [.command 0x1 0 []]) := by decide

/-- A state that no run reaches: ABS_OFF beyond the state stops by name (log entry 7). -/
theorem test_no_state_byte : exec (.absorb [0]) (sha256At 200) = .fault (.noStateByte 200) := by rfl

/-! ## The assembler -/

/-- R93: one line of each shape that has operands. -/
theorem test_assembler_lines :
    parseLine "CFG_EXPLICIT cap=512, dom=SHAKE, hsize=8".toList = some (.cfgExplicit 512 .shake 8) ∧
      parseLine "FINALIZE     tbits=3, tbyte=0x05".toList = some (.finalize 3 5) ∧
      parseLine "ABSORB 616263 ; three bytes".toList = some (.absorb [0x61, 0x62, 0x63]) ∧
      parseLine "DIGEST SHAKE128, \"\", 0, outbits=256".toList = some (.digest .shake128 [] 0 (some 256)) ∧
      parseLine "NOP".toList = none := by decide +kernel

/-- R96: a 30-bit message (V16) becomes three bytes and six trailing bits. -/
theorem test_assembler_digest :
    assemble (.digest .sha3_256 [0x53, 0x58, 0x7B, 0x19] 30 none) =
      some [.cfgVariant .sha3_256, .init, .absorb [0x53, 0x58, 0x7B], .finalize 6 0x19] := by decide +kernel

/-- R94: an operand that does not fit its field is an assembly error. -/
theorem test_assembler_error : assembleProgram [.init, .squeeze 65536] = none := by decide

/-! ## Witnesses: the hypotheses of the statements can be met -/

theorem witness_DecodeOfEncode : (Instr.absorb (List.replicate 65535 0)).wellFormed = true :=
  test_wellFormed_accepts_full_payload

theorem witness_EncodeOfDecode : decode 0x305 [1, 2, 3] = .command (.absorb [1, 2, 3]) := by decide

/-- An illegal word, and a legal one that reports another code. -/
theorem witness_IllegalExactly :
    (∃ t, runCommand 0x00 [] State.reset = .next t ∧ t.lastErr = 1) ∧
      ∃ t, runCommand 0x04 [] State.reset = .next t ∧ t.lastErr = 4 := ⟨⟨_, rfl, rfl⟩, ⟨_, rfl, rfl⟩⟩

theorem witness_LengthExactly :
    (∃ t, runCommand 0x04 [0] State.reset = .next t ∧ t.lastErr = 5) ∧
      ∃ t, runCommand 0x04 [] State.reset = .next t ∧ t.lastErr = 4 := ⟨⟨_, rfl, rfl⟩, ⟨_, rfl, rfl⟩⟩

theorem length_absorbLong_zeros (n : Nat) :
    (absorbLong (List.replicate n 0)).length = ceilDiv n Config.maxChunk := by
  simp only [absorbLong, List.length_map, List.length_range, List.length_replicate]

/-- 65536 bytes make two ABSORBs, so that one is not the last. -/
theorem witness_AbsorbLongExpands :
    0 < (absorbLong (List.replicate 65536 0)).length - 1 ∧ (absorbLong (List.replicate 1 0)) ≠ [] ∧
      (sha256At 135).Absorbing := by
  refine ⟨?_, by decide, by decide⟩
  rw [length_absorbLong_zeros]
  decide

/-- The last bit of a lane, the last byte of the state and the last lane. -/
theorem witness_LaneViewAliasesBytes : 63 < 64 ∧ 199 < 200 ∧ (24 : Fin 25).val = 24 := by decide

theorem witness_LaneXorIsEightByteXors : 199 < 200 ∧ 7 < 8 ∧ (24 : Fin 25).val = 24 := by decide

theorem witness_StepMappingsByCoordinate : (4 : Nat) < 5 ∧ (0 : Nat) < 5 := by decide

theorem witness_RotationMovesBits : (63 : Nat) < 64 := by decide

theorem witness_PiMovesLanes : (4 : Nat) < 5 ∧ (0 : Nat) < 5 := by decide

theorem witness_TablesFollowTheirGenerators : (1, 1) ∈ rhoGenerate 24 0 1 0 := by decide

/-- The smallest and the largest accepted capacity and output length. -/
theorem witness_CfgExplicitLoads :
    ((0 : BitVec 11).toNat < 1600 ∧ (0 : BitVec 11).toNat % 8 = 0 ∧ 1 ≤ (1 : BitVec 20).toNat ∧
      (1 : BitVec 20).toNat ≤ 8 * Config.maxOutBytes) ∧
    ((1592 : BitVec 11).toNat < 1600 ∧ (1592 : BitVec 11).toNat % 8 = 0 ∧ 1 ≤ (524280 : BitVec 20).toNat ∧
      (524280 : BitVec 20).toNat ≤ 8 * Config.maxOutBytes) := by decide

/-- Both phases, at both ends of the range. -/
theorem witness_SetOutlenWritesLength :
    ((session 256 128 .shake 4 .configured 0).phase = .configured ∧ (session 256 128 .shake 4 .configured 0).xof = 1 ∧
      1 ≤ (524280 : BitVec 20).toNat ∧ (524280 : BitVec 20).toNat ≤ 8 * Config.maxOutBytes) ∧
    ((shake128At 0).phase = .absorbing ∧ (shake128At 0).xof = 1 ∧ 1 ≤ (1 : BitVec 20).toNat) := by decide

/-- One witness for each of the three commands. -/
theorem witness_OutputLengthChangesOnlyBy :
    (∃ t, exec (.cfgVariant .sha3_256) State.reset = .next t ∧ t.hashSize ≠ State.reset.hashSize) ∧
    (∃ t, exec (.cfgExplicit 512 .sha3 9) State.reset = .next t ∧ t.hashSize ≠ State.reset.hashSize) ∧
    ∃ t, exec (.setOutlen 9) (shake128At 0) = .next t ∧ t.hashSize ≠ (shake128At 0).hashSize :=
  ⟨⟨_, rfl, by decide⟩, ⟨_, rfl, by decide⟩, ⟨_, rfl, by decide⟩⟩

theorem witness_ParametersChangeOnlyByCfg :
    ∃ t, exec .init (sha256At 3) = .next t ∧ Instr.init.opcode ≠ .cfgVariant ∧ Instr.init.opcode ≠ .cfgExplicit :=
  ⟨_, rfl, by decide, by decide⟩

theorem witness_InitStartsSession : (squeezing128 168).phase ≠ .unconfigured := by decide

/-- Two sessions of one parameter set that differ in S, the cursor and the phase. -/
theorem witness_InitForgetsOldSession :
    let s := { shake128At 5 with sponge := marked }
    let t := squeezing128 9
    s.sqzPos ≠ t.sqzPos ∧ s.absOff ≠ t.absOff ∧ s.phase ≠ t.phase ∧ s.phase ≠ .unconfigured ∧ t.phase ≠ .unconfigured ∧ s.capacity = t.capacity ∧ s.rateBits = t.rateBits ∧
      s.rateBytes = t.rateBytes ∧ s.hashSize = t.hashSize ∧ s.dom = t.dom ∧ s.suffix = t.suffix ∧
      s.suffixLen = t.suffixLen ∧ s.variant = t.variant ∧ s.xof = t.xof ∧ s.errSeen = t.errSeen ∧
      s.inbox = t.inbox ∧ s.outbox = t.outbox := by decide

theorem witness_AbsorbIsFoldOfAbsorbByte : (sha256At 135).Absorbing := by decide

/-- The most that still leaves the block open. -/
theorem witness_AbsorbInsideBlockChangesOnlyItsBytes :
    (sha256At 132).Absorbing ∧ (sha256At 132).absOff.toNat + [0x61, 0x62, (0x63 : Byte)].length <
      (sha256At 132).rateBytes.toNat := by decide

theorem witness_AbsorbConcatenates : (shake128At 167).Absorbing := by decide

/-- The smallest and the largest rate. -/
theorem witness_LaneFastPathEqualsByteSteps :
    (1 ≤ (1 : BitVec 8).toNat ∧ (1 : BitVec 8).toNat ≤ 200 ∧ (List.replicate 1 (0 : Byte)).length = (1 : BitVec 8).toNat) ∧
    (1 ≤ (200 : BitVec 8).toNat ∧ (200 : BitVec 8).toNat ≤ 200 ∧
      (List.replicate 200 (0 : Byte)).length = (200 : BitVec 8).toNat) :=
  ⟨⟨by decide, by decide, List.length_replicate⟩, by decide, by decide, List.length_replicate⟩

theorem witness_TailGroupsAreDisjoint : (sha256At 135).Absorbing ∧ (session 1592 20 .shake 7 .absorbing 0).Absorbing := by
  decide

theorem witness_SecondTailBlockExactly : (sha256At 135).Absorbing ∧ (shake128At 167).Absorbing := by decide

theorem witness_ByteAlignedPadding : (sha256At 135).Absorbing ∧ (shake128At 0).Absorbing := by decide

theorem witness_FinalizeResult :
    (session 1592 20 .shake 7 .absorbing 0).Absorbing ∧ (session 0 524280 .sha3 7 .absorbing 199).Absorbing := by decide

/-- Two bytes that differ only at bit 3 and above. -/
theorem witness_FinalizeIgnoresHighTailBits :
    ∀ i < (3 : BitVec 3).toNat, (0x05 : Byte).getLsbD i = (0xFD : Byte).getLsbD i := by decide

/-- A 20-bit output, whose last byte keeps four bits. -/
theorem witness_OutputIsMasked :
    let s := session 1592 20 .shake 7 .absorbing 0
    s.Absorbing ∧ 4 < 8 ∧ s.hashSize.toNat % 8 ≠ 0 ∧ s.hashSize.toNat % 8 ≤ 4 := by decide

theorem witness_PaddedLengthIsLeast : (1 : Nat) ≤ 1 ∧ (1 : Nat) ≤ 1600 := by decide

theorem witness_SessionComputesTheSponge :
    let s := session 1592 524280 .shake 7 .configured 0
    s.phase ≠ .unconfigured ∧ s.ParamsLegal ∧ s.dom = Domain.shake.code := by decide

theorem witness_SqueezeResult : (squeezing128 168).Squeezing ∧ (squeezing128 0).Squeezing := by decide

/-- Both clauses at their boundary: up to the last byte of the block, and from an exhausted block. -/
theorem witness_SqueezeReadsTheBlock :
    ((squeezing128 160).Squeezing ∧
      (squeezing128 160).sqzPos.toNat + (8 : BitVec 16).toNat ≤ (squeezing128 160).rateBytes.toNat) ∧
    ((squeezing128 168).Squeezing ∧ (squeezing128 168).sqzPos = (squeezing128 168).rateBytes ∧
      1 ≤ (168 : BitVec 16).toNat ∧ (168 : BitVec 16).toNat ≤ (squeezing128 168).rateBytes.toNat) := by decide

theorem witness_SqueezeContinuesTheStream :
    (squeezing128 168).Squeezing ∧ (65534 : BitVec 16).toNat + (1 : BitVec 16).toNat = (65535 : BitVec 16).toNat := by
  decide

/-- Both clauses: whole bytes up to the longest digest, and lengths one bit apart. -/
theorem witness_XofOutputsArePrefixes :
    (shake128At 167).Absorbing ∧ (shake128At 167).xof = 1 ∧
      ((1 : Nat) ≤ 1 ∧ (1 : Nat) < 65535 ∧ 65535 ≤ Config.maxOutBytes) ∧
      ((1 : Nat) ≤ 524279 ∧ (524279 : Nat) < 524280 ∧ 524280 ≤ 8 * Config.maxOutBytes) := by decide

/-- SHAKE128 while absorbing meets the invariants. -/
theorem shake128_inv : (shake128At 167).Inv where
  cleared := by decide
  params := by decide
  absorbing := by decide
  squeezing := by decide
  errors := by decide

/-- An illegal word, a legal word with a payload it must not have, and a command. -/
theorem witness_FirstCauseIsReported :
    (shake128At 167).Inv ∧ illegalWord 0x09 ∧ (¬illegalWord 0x04 ∧ wrongLength 0x04 [0]) ∧
      decode 0x04 [] = .command .init := by
  refine ⟨shake128_inv, ?_, ⟨?_, ?_⟩, by decide⟩
  · exact .inr (.inl (by decide))
  · rintro (h | h | h | ⟨h, -⟩ | ⟨h, -⟩)
    · exact absurd h (by decide)
    · exact absurd h (by decide)
    · exact h (by decide)
    · exact absurd h (by decide)
    · exact absurd h (by decide)
  · exact .inr ⟨by decide, by decide⟩

theorem witness_FailureChangesNothingElse :
    ∃ t, runCommand 0x105 [0x61] State.reset = .next t ∧ t.lastErr ≠ 0 := ⟨_, rfl, by decide⟩

/-- One MISUSE cell for each command that has one, and a command that reports ERR_MISUSE. -/
theorem witness_MisuseExactly :
    misuse (.setOutlen 8) .done ∧ misuse .init .unconfigured ∧ misuse (.absorb [0]) .squeezing ∧
      misuse (.finalize 0 0) .configured ∧ misuse (.squeeze 1) .absorbing ∧
      ∃ t, exec (.absorb [0]) State.reset = .next t ∧ t.lastErr = 4 :=
  ⟨.inr (.inr rfl), rfl, by simp [misuse], by simp [misuse], by simp [misuse], ⟨_, rfl, rfl⟩⟩

/-- Every case of R224 at its boundary. -/
theorem witness_BadConfigExactly :
    badConfig (.cfgExplicit 1600 .sha3 8) ∧ badConfig (.cfgExplicit 1591 .sha3 8) ∧
      badConfig (.cfgExplicit 512 .sha3 0) ∧ badConfig (.cfgExplicit 512 .sha3 524281) ∧
      badConfig (.setOutlen 0) ∧ badConfig (.setOutlen 524281) ∧
      ¬misuse (.setOutlen 0) (shake128At 0).phase ∧ ¬notXof (shake128At 0) (.setOutlen 0) ∧
      ∃ t, exec (.setOutlen 0) (shake128At 0) = .next t ∧ t.lastErr = 2 := by
  refine ⟨.inl (by decide), .inr (.inl (by decide)), .inr (.inr (.inl (by decide))),
    .inr (.inr (.inr (by decide))), .inl (by decide), .inr (by decide), ?_, ?_, ⟨_, rfl, rfl⟩⟩
  · rintro (h | h | h) <;> exact absurd h (by decide)
  · intro h
    exact absurd (show (shake128At 0).xof = 0 from h) (by decide)

theorem witness_SetOutlenNeedsXof :
    ((session 512 256 .sha3 1 .configured 0).phase = .configured ∧ (session 512 256 .sha3 1 .configured 0).xof = 0) ∧
    ((sha256At 0).phase = .absorbing ∧ (sha256At 0).xof = 0 ∧ (sha256At 0).ParamsLegal ∧ (shake128At 0).ParamsLegal) ∧
    ∃ t, exec (.setOutlen 8) (sha256At 0) = .next t ∧ t.lastErr = 3 :=
  ⟨by decide, by decide, ⟨_, rfl, rfl⟩⟩

/-- A state with an error seen whose next move is not a reset, and a command that fails. -/
theorem witness_ErrorsSeenAreSticky :
    (∃ t, step { sha256At 0 with errSeen := 2, inbox := [.command 0x04 []] } = .next t ∧
      ({ sha256At 0 with errSeen := 2, inbox := [.command 0x04 []] } : State).inbox.head? ≠ some .reset ∧
      (2 : BitVec 8).getLsbD 1 = true) ∧
    ∃ t, runCommand 0x09 [] State.reset = .next t ∧ t.lastErr ≠ 0 :=
  ⟨⟨_, rfl, by decide, by decide⟩, ⟨_, rfl, by decide⟩⟩

theorem witness_ErrorLeavesNextCommandAlone : ∃ t, exec .init (sha256At 7) = .next t := ⟨_, rfl⟩

/-- A success, a MISUSE cell, a failing transaction and an illegal one. -/
theorem witness_PhaseTable :
    (∃ t, exec .init (sha256At 7) = .next t ∧ t.lastErr = 0) ∧
    (∃ t, exec .init State.reset = .next t ∧ misuse .init State.reset.phase) ∧
    (∃ t, runCommand 0x09 [] State.reset = .next t ∧ t.lastErr ≠ 0 ∧ illegalWord 0x09) ∧
    ∃ t, runCommand 0x04 [0] State.reset = .next t ∧ wrongLength 0x04 [0] :=
  ⟨⟨_, rfl, rfl⟩, ⟨_, rfl, rfl⟩, ⟨_, rfl, by decide, .inr (.inl (by decide))⟩, ⟨_, rfl, .inr ⟨by decide, by decide⟩⟩⟩

/-- One witness for INIT, which is enough to see the state array change. -/
theorem witness_StateArrayChangesOnlyBy :
    ∃ t, exec .init { sha256At 0 with sponge := marked } = .next t ∧
      t.sponge ≠ ({ sha256At 0 with sponge := marked } : State).sponge :=
  ⟨_, rfl, fun h => absurd (congrArg (fun S : Sponge => S[0]) h) (by decide)⟩

theorem witness_ResetImages : (24 : Nat) < 25 := by decide

theorem witness_StepKeepsInvariants :
    (shake128At 167).Inv ∧ ∃ t, step (shake128At 167) = .next t := ⟨shake128_inv, ⟨_, rfl⟩⟩

theorem witness_StepNeverStops : (shake128At 167).Inv := shake128_inv

/-- Before the first move and after the last. -/
theorem witness_EveryHostRunGoesOn :
    0 ≤ [HostMove.reset, .read 0].length ∧ 2 ≤ [HostMove.reset, .read 0].length := by decide

theorem witness_StepRunsTheDecodedCommand :
    ({ State.reset with inbox := [.command 0x101 []] } : State).inbox = .command 0x101 [] :: [] ∧
      decode 0x101 [] = .command (.cfgVariant .sha3_256) := by decide

/-- Both clauses. -/
theorem witness_StepReportsBadTransactions :
    (({ State.reset with inbox := [.command 0x09 []] } : State).inbox = .command 0x09 [] :: [] ∧ illegalWord 0x09) ∧
    (({ State.reset with inbox := [.command 0x04 [0]] } : State).inbox = .command 0x04 [0] :: [] ∧
      ¬illegalWord 0x04 ∧ wrongLength 0x04 [0]) :=
  ⟨⟨rfl, .inr (.inl (by decide))⟩, rfl, witness_FirstCauseIsReported.2.2.1⟩

/-- An address of each clause, at the boundaries. -/
theorem witness_ReadAnswersTheMap :
    ({ State.reset with inbox := [.read 0x1C0] } : State).inbox = .read 0x1C0 :: [] ∧
      0x1C1 % 8 ≠ 0 ∧ 0x1C0 = 0x100 + 8 * (24 : Fin 25).val ∧ 0x020 ≤ 0x0FF ∧ 0x0F8 < 0x100 ∧ 0x1C8 ≤ 0x1C8 := by
  decide

theorem witness_HardwareResetRestoresResetState :
    ({ shake128At 9 with inbox := [.reset, .read 0] } : State).inbox = .reset :: [.read 0] := rfl

theorem witness_IdleEngineKeepsItsState : (shake128At 9).inbox = [] := rfl

end Sys2Proof.Tests
end

section
/-! PROOF. The two statements of 00_scope.md: the lane rotation of R11, and what one step does with a command (R8). -/

open Sys2Proof
open Sys2Proof.Machine

namespace Sys2Proof.Scope

/-- The target bit wraps past the top of the word exactly when `w ≤ z + n % w`, and there the rotation reads the part
of the word that it moved to the bottom. -/
theorem getLsbD_rotateLeft_add_mod {w : Nat} (a : BitVec w) (n z : Nat) (hz : z < w) :
    (a.rotateLeft n).getLsbD ((z + n) % w) = a.getLsbD z := by
  have hr : n % w < w := Nat.mod_lt _ (by omega)
  rw [BitVec.getLsbD_rotateLeft, ← Nat.add_mod_mod z n w]
  generalize n % w = r at hr
  by_cases hwrap : z + r < w
  · have hstay : ¬z + r < r := by omega
    simp [Nat.mod_eq_of_lt hwrap, hwrap, hstay]
  · have hpos : (z + r) % w = z + r - w := by
      rw [Nat.mod_eq_sub_mod (by omega), Nat.mod_eq_of_lt (by omega)]
    have hlow : z + r - w < r := by omega
    have hback : w - r + (z + r - w) = z := by omega
    simp [hpos, hlow, hback]

/-- A step on a pending command transaction that decodes to `i` answers the outcome of `i`. -/
theorem step_of_decode_command {s : State} {cmd : Word} {p : List Byte} {rest : List HostMove} {i : Instr}
    (hin : s.inbox = .command cmd p :: rest) (hdec : decode cmd p = .command i) :
    step s = answerCommand (exec i { s with inbox := rest }) := by
  rw [step_of_inbox_cons hin, takeMove, runCommand_command _ hdec]

end Sys2Proof.Scope

/-- Settles O12, by `Scope.getLsbD_rotateLeft_add_mod` at the lane width. -/
theorem rotationMovesBits : Obligations.RotationMovesBits :=
  fun a n z hz => Scope.getLsbD_rotateLeft_add_mod a n z hz

/-- Settles O54: the step is the answered `exec` of the decoded command, and `answerCommand` adds the response of R64 to
a next state and passes a fault or a refusal on. -/
theorem stepRunsTheDecodedCommand : Obligations.StepRunsTheDecodedCommand := by
  intro s cmd p rest i hin hdec
  rw [Scope.step_of_decode_command hin hdec]
  cases exec i { s with inbox := rest } with
  | next t => rfl
  | fault f => rfl
  | refused r => rfl
end

section
/-! PROOF. The statements of 10_state.md: every step keeps the invariants of R42 and is answered, the lane view, the
parameter and error registers, and the register images. -/

open Sys2Proof
open Sys2Proof.Machine

namespace Sys2Proof.ArchState

/-! ## The parameter registers -/

/-- The block of a legal rate lies inside the state array. -/
theorem rateBytes_le_of_rateLegal {s : State} (h : s.RateLegal) : s.rateBytes.toNat ≤ 200 := by
  obtain ⟨-, hsum, hbytes, -⟩ := h
  omega

theorem rateBytes_pos_of_rateLegal {s : State} (h : s.RateLegal) : 0 < s.rateBytes.toNat := by
  obtain ⟨-, -, -, hpos⟩ := h
  exact hpos

/-- Every accepted capacity gives a legal rate (R145). -/
theorem rateLegal_loadParams {cap : BitVec 11} (hc : capacityAccepted cap = true) (h : BitVec 20) (d : Domain)
    (v : BitVec 4) (s : State) : (loadParams cap h d v s).RateLegal := by
  obtain ⟨hlt, hmod⟩ := capacityAccepted_iff.mp hc
  simp only [State.RateLegal, loadParams_capacity, loadParams_rateBits, loadParams_rateBytes, BitVec.toNat_ofNat]
  omega

/-- Each domain loads its own row of R142. -/
theorem domainLegal_loadParams (cap : BitVec 11) (h : BitVec 20) (d : Domain) (v : BitVec 4) (s : State) :
    (loadParams cap h d v s).DomainLegal := by
  cases d with
  | sha3 => exact .inl ⟨rfl, rfl, rfl, rfl⟩
  | shake => exact .inr ⟨rfl, rfl, rfl, rfl⟩

/-- The row of every standard variant passes the checks of CFG_EXPLICIT, and its code is a legal VARIANT (R140). -/
theorem variantRow_accepted (v : Variant) :
    capacityAccepted (variantCapacity v) = true ∧ outputLengthAccepted (variantHashSize v) = true ∧
      v.code.toNat ≤ 5 := by
  cases v <;> decide

/-! ## How a command ends -/

/-- Every command either completes, with code 0, ERR_SEEN as it was and the host's pending moves untouched, or fails
closed (R37, R222). -/
theorem exec_next_completes_or_fails {i : Instr} {s t : State} (hx : exec i s = .next t) :
    (t.lastErr = 0 ∧ t.errSeen = s.errSeen ∧ t.inbox = s.inbox) ∨ ∃ e, t = failClosed e s := by
  cases i with
  | cfgVariant v => exact .inl (by simp [exec_cfgVariant_next hx])
  | cfgExplicit cap d h =>
    obtain ⟨-, -, rfl⟩ | ⟨-, rfl⟩ := exec_cfgExplicit_next hx
    · exact .inl (by simp)
    · exact .inr ⟨_, rfl⟩
  | setOutlen b =>
    obtain ⟨-, -, -, rfl⟩ | ⟨-, rfl⟩ | ⟨-, -, rfl⟩ | ⟨-, -, -, rfl⟩ := exec_setOutlen_next hx
    · exact .inl (by simp)
    all_goals exact .inr ⟨_, rfl⟩
  | init =>
    obtain ⟨-, rfl⟩ | ⟨-, rfl⟩ := exec_init_next hx
    · exact .inl (by simp)
    · exact .inr ⟨_, rfl⟩
  | absorb p =>
    obtain ⟨-, c, -, rfl⟩ | ⟨-, rfl⟩ := exec_absorb_next hx
    · exact .inl (by simp)
    · exact .inr ⟨_, rfl⟩
  | finalize tb v =>
    obtain ⟨-, S, o, c, -, -, rfl⟩ | ⟨-, rfl⟩ := exec_finalize_next hx
    · exact .inl (by simp)
    · exact .inr ⟨_, rfl⟩
  | squeeze n =>
    obtain ⟨-, o, c, -, rfl⟩ | ⟨-, rfl⟩ := exec_squeeze_next hx
    · exact .inl (by simp)
    · exact .inr ⟨_, rfl⟩
  | permute => exact .inl (by simp [exec_permute_next hx])

/-- All that a command transaction can do: fail on its word or its payload, or be the command it decodes to (R90). -/
theorem runCommand_next {cmd : Word} {p : List Byte} {s t : State} (h : runCommand cmd p s = .next t) :
    (∃ e, t = failClosed e s) ∨ ∃ i, exec i s = .next t := by
  cases hdec : decode cmd p with
  | illegal => rw [runCommand_illegal s hdec] at h; cases h; exact .inl ⟨_, rfl⟩
  | length => rw [runCommand_length s hdec] at h; cases h; exact .inl ⟨_, rfl⟩
  | command i => exact .inr ⟨i, by rwa [runCommand_command s hdec] at h⟩

/-- `exec_next_completes_or_fails`, for a whole transaction. -/
theorem runCommand_next_completes_or_fails {cmd : Word} {p : List Byte} {s t : State}
    (h : runCommand cmd p s = .next t) :
    (t.lastErr = 0 ∧ t.errSeen = s.errSeen ∧ t.inbox = s.inbox) ∨ ∃ e, t = failClosed e s := by
  obtain hfail | ⟨i, hx⟩ := runCommand_next h
  · exact .inr hfail
  · exact exec_next_completes_or_fails hx

/-! ## The error registers (R37) -/

/-- A failure keeps every ERR_SEEN bit. -/
theorem errSeen_failClosed_of_set {e : ErrCode} {s : State} {j : Nat} (h : s.errSeen.getLsbD j = true) :
    (failClosed e s).errSeen.getLsbD j = true := by
  simp [h]

/-- A failure records its own code in ERR_SEEN. -/
theorem errSeen_failClosed_self (e : ErrCode) (s : State) :
    (failClosed e s).errSeen.getLsbD (failClosed e s).lastErr.toNat = true := by
  cases e <;> simp [ErrCode.code]

theorem errSeen_runCommand_of_set {cmd : Word} {p : List Byte} {s t : State} {j : Nat}
    (h : runCommand cmd p s = .next t) (hj : s.errSeen.getLsbD j = true) : t.errSeen.getLsbD j = true := by
  obtain ⟨-, hseen, -⟩ | ⟨e, rfl⟩ := runCommand_next_completes_or_fails h
  · rwa [hseen]
  · exact errSeen_failClosed_of_set hj

/-- No code is 0, 6 or 7, so a failure never sets a reserved bit of ERR_SEEN. -/
theorem errorsLegal_failClosed (e : ErrCode) {s : State} (h : s.ErrorsLegal) : (failClosed e s).ErrorsLegal := by
  obtain ⟨-, hmask, -⟩ := h
  refine ⟨by cases e <;> simp [ErrCode.code], ?_, fun _ => errSeen_failClosed_self e s⟩
  have hbit : (1#8 <<< e.code.toNat) &&& 0b11000001#8 = 0 := by cases e <;> decide
  rw [failClosed_errSeen, BitVec.and_or_distrib_right, hmask, hbit]
  rfl

theorem errorsLegal_of_completes {s t : State} (h : s.ErrorsLegal) (hlast : t.lastErr = 0)
    (hseen : t.errSeen = s.errSeen) : t.ErrorsLegal := by
  obtain ⟨-, hmask, -⟩ := h
  exact ⟨by simp [hlast], by rw [hseen, hmask], fun hne => absurd hlast hne⟩

theorem errorsLegal_exec {i : Instr} {s t : State} (h : s.ErrorsLegal) (hx : exec i s = .next t) : t.ErrorsLegal := by
  obtain ⟨hlast, hseen, -⟩ | ⟨e, rfl⟩ := exec_next_completes_or_fails hx
  · exact errorsLegal_of_completes h hlast hseen
  · exact errorsLegal_failClosed e h

/-! ## The loops keep their cursors in the block -/

/-- The cursor a completed absorb loop leaves is inside the block (R42 (c)). -/
theorem absorbBytes_pos_lt {s : State} {p : List Byte} {c c' : Cursor} (hrate : s.RateLegal)
    (hc : c.pos.toNat < s.rateBytes.toNat) (h : absorbBytes s.rateBytes p c = .ok c') :
    c'.pos.toNat < s.rateBytes.toNat := by
  obtain ⟨c1, h1, hlt, -⟩ := absorbBytes_ok (rateBytes_le_of_rateLegal hrate) p c hc
  cases h1.symm.trans h
  exact hlt

/-- The cursor a completed squeeze loop leaves is at most the rate (R42 (d)). -/
theorem squeezeBytes_pos_le {s : State} {n : Nat} {c c' : Cursor} {o : List Byte} (hrate : s.RateLegal)
    (hc : c.pos.toNat ≤ s.rateBytes.toNat) (h : squeezeBytes s.rateBytes n c = .ok (o, c')) :
    c'.pos.toNat ≤ s.rateBytes.toNat := by
  obtain ⟨o1, c1, h1, -, hle⟩ :=
    squeezeBytes_ok (rateBytes_pos_of_rateLegal hrate) (rateBytes_le_of_rateLegal hrate) n c hc
  cases h1.symm.trans h
  exact hle

theorem finalPhase_ne_unconfigured (x : BitVec 1) (h : BitVec 20) : finalPhase x h ≠ .unconfigured := by
  unfold finalPhase
  split <;> simp

theorem finalPhase_ne_absorbing (x : BitVec 1) (h : BitVec 20) : finalPhase x h ≠ .absorbing := by
  unfold finalPhase
  split <;> simp

theorem finalPhase_eq_squeezing {x : BitVec 1} {h : BitVec 20} :
    finalPhase x h = .squeezing ↔ x = 1 ∧ h.toNat % 8 = 0 := by
  simp [finalPhase]

/-! ## The invariants of R42 -/

theorem inv_failClosed (e : ErrCode) {s : State} (h : s.Inv) : (failClosed e s).Inv :=
  { h with errors := errorsLegal_failClosed e h.errors }

/-- R42 says nothing of the answers the host has got, nor of the moves it has pending. -/
theorem inv_respond (r : Response) {s : State} (h : s.Inv) : (respond r s).Inv := { h with }

theorem inv_withInbox (ms : List HostMove) {s : State} (h : s.Inv) : ({ s with inbox := ms } : State).Inv := { h with }

theorem inv_reset : State.reset.Inv where
  cleared _ := by decide
  params h := absurd rfl h
  absorbing := nofun
  squeezing := nofun
  errors := by decide

theorem inv_hardwareReset (s : State) : (hardwareReset s).Inv := { inv_reset with }

/-- CFG_* on accepted values: the set it loads is legal, and CONFIGURED claims nothing of the cursors. -/
theorem inv_loadParams {cap : BitVec 11} {h : BitVec 20} {d : Domain} {v : BitVec 4} {s : State}
    (hs : s.ErrorsLegal) (hc : capacityAccepted cap = true) (hh : outputLengthAccepted h = true)
    (hv : v.toNat ≤ 5 ∨ v = 7) : (complete 0 [] (loadParams cap h d v s)).Inv where
  cleared := nofun
  params _ :=
    ⟨rateLegal_loadParams hc h d v s, domainLegal_loadParams cap h d v s, outputLengthAccepted_iff.mp hh, hv⟩
  absorbing := nofun
  squeezing := nofun
  errors := errorsLegal_of_completes hs rfl rfl

section Commands

variable {s t : State} (h : s.Inv)
include h

theorem inv_cfgVariant {v : Variant} (hx : exec (.cfgVariant v) s = .next t) : t.Inv := by
  obtain ⟨hcap, hlen, hcode⟩ := variantRow_accepted v
  rw [exec_cfgVariant_next hx]
  exact inv_loadParams h.errors hcap hlen (.inl hcode)

theorem inv_cfgExplicit {cap : BitVec 11} {d : Domain} {b : BitVec 20} (hx : exec (.cfgExplicit cap d b) s = .next t) :
    t.Inv := by
  obtain ⟨hcap, hlen, rfl⟩ | ⟨-, rfl⟩ := exec_cfgExplicit_next hx
  · exact inv_loadParams h.errors hcap hlen (.inr rfl)
  · exact inv_failClosed _ h

/-- SET_OUTLEN runs only where no output has been given, so it never breaks the whole-byte length of SQUEEZING. -/
theorem inv_setOutlen {b : BitVec 20} (hx : exec (.setOutlen b) s = .next t) : t.Inv := by
  obtain ⟨hphase, -, hlen, rfl⟩ | ⟨-, rfl⟩ | ⟨-, -, rfl⟩ | ⟨-, -, -, rfl⟩ := exec_setOutlen_next hx
  · have hne : s.phase ≠ .unconfigured ∧ s.phase ≠ .squeezing := by
      obtain hp | hp := setOutlenPhase_iff.mp hphase <;> simp [hp]
    obtain ⟨hconf, hsqz⟩ := hne
    obtain ⟨hrate, hdom, -, hvar⟩ := h.params hconf
    exact ⟨fun hu => absurd hu hconf, fun _ => ⟨hrate, hdom, outputLengthAccepted_iff.mp hlen, hvar⟩, h.absorbing,
      fun hq => absurd hq hsqz, errorsLegal_exec h.errors hx⟩
  all_goals exact inv_failClosed _ h

theorem inv_init (hx : exec .init s = .next t) : t.Inv := by
  obtain ⟨hp, rfl⟩ | ⟨-, rfl⟩ := exec_init_next hx
  · obtain ⟨hrate, -⟩ := h.params hp
    exact ⟨nofun, fun _ => h.params hp, fun _ => rateBytes_pos_of_rateLegal hrate, nofun,
      errorsLegal_exec h.errors hx⟩
  · exact inv_failClosed _ h

theorem inv_absorb {p : List Byte} (hx : exec (.absorb p) s = .next t) : t.Inv := by
  obtain ⟨hp, c, hc, rfl⟩ | ⟨-, rfl⟩ := exec_absorb_next hx
  · obtain ⟨hrate, -⟩ := h.params (by simp [hp])
    refine ⟨h.cleared, h.params, fun _ => ?_, h.squeezing, errorsLegal_exec h.errors hx⟩
    exact absorbBytes_pos_lt hrate (h.absorbing hp) hc
  · exact inv_failClosed _ h

theorem inv_finalize {tb : BitVec 3} {v : Byte} (hx : exec (.finalize tb v) s = .next t) : t.Inv := by
  obtain ⟨hp, S, o, c, -, hc, rfl⟩ | ⟨-, rfl⟩ := exec_finalize_next hx
  · have hconf : s.phase ≠ .unconfigured := by simp [hp]
    obtain ⟨hrate, -⟩ := h.params hconf
    refine ⟨fun hu => ?_, fun _ => h.params hconf, fun ha => ?_, fun hq => ?_, errorsLegal_exec h.errors hx⟩
    · exact absurd hu (finalPhase_ne_unconfigured _ _)
    · exact absurd ha (finalPhase_ne_absorbing _ _)
    · obtain ⟨hxof, hmod⟩ := finalPhase_eq_squeezing.mp hq
      exact ⟨squeezeBytes_pos_le hrate (Nat.zero_le _) hc, hxof, hmod⟩
  · exact inv_failClosed _ h

theorem inv_squeeze {n : BitVec 16} (hx : exec (.squeeze n) s = .next t) : t.Inv := by
  obtain ⟨hp, o, c, hc, rfl⟩ | ⟨-, rfl⟩ := exec_squeeze_next hx
  · obtain ⟨hrate, -⟩ := h.params (by simp [hp])
    obtain ⟨hle, hxof, hmod⟩ := h.squeezing hp
    exact ⟨h.cleared, h.params, h.absorbing, fun _ => ⟨squeezeBytes_pos_le hrate hle hc, hxof, hmod⟩,
      errorsLegal_exec h.errors hx⟩
  · exact inv_failClosed _ h

theorem inv_permute (hx : exec .permute s = .next t) : t.Inv := by
  cases exec_permute_next hx
  exact { h with errors := errorsLegal_exec h.errors hx }

/-- Every command keeps the invariants of R42. -/
theorem inv_exec {i : Instr} (hx : exec i s = .next t) : t.Inv := by
  cases i with
  | cfgVariant v => exact inv_cfgVariant h hx
  | cfgExplicit cap d b => exact inv_cfgExplicit h hx
  | setOutlen b => exact inv_setOutlen h hx
  | init => exact inv_init h hx
  | absorb p => exact inv_absorb h hx
  | finalize tb v => exact inv_finalize h hx
  | squeeze n => exact inv_squeeze h hx
  | permute => exact inv_permute h hx

theorem inv_runCommand {cmd : Word} {p : List Byte} (hr : runCommand cmd p s = .next t) : t.Inv := by
  obtain ⟨e, rfl⟩ | ⟨i, hx⟩ := runCommand_next hr
  · exact inv_failClosed e h
  · exact inv_exec h hx

theorem inv_step (hst : step s = .next t) : t.Inv := by
  obtain ⟨-, rfl⟩ | ⟨cmd, p, rest, s1, -, hr, rfl⟩ | ⟨a, rest, -, rfl⟩ | ⟨rest, -, rfl⟩ := step_next hst
  · exact h
  · exact inv_respond _ (inv_runCommand (inv_withInbox rest h) hr)
  · exact inv_respond _ (inv_withInbox rest h)
  · exact inv_hardwareReset _

end Commands

/-! ## Every command is answered (R42, R222) -/

theorem exec_absorb_of_ok {p : List Byte} {s : State} {c : Cursor} (hp : s.phase = .absorbing)
    (hc : absorbBytes s.rateBytes p ⟨s.sponge, s.absOff⟩ = .ok c) :
    exec (.absorb p) s =
      .next (complete (BitVec.ofNat 64 p.length) [] { s with sponge := c.sponge, absOff := c.pos }) := by
  simp only [exec, execAbsorb, if_pos hp, hc]

theorem exec_absorb_of_ne {p : List Byte} {s : State} (hp : s.phase ≠ .absorbing) :
    exec (.absorb p) s = .next (failClosed .misuse s) := by
  simp only [exec, execAbsorb, if_neg hp, failed]

theorem exec_finalize_of_ok {tb : BitVec 3} {v : Byte} {s : State} {S : Sponge} {o : List Byte} {c : Cursor}
    (hp : s.phase = .absorbing) (hS : padAndPermute tb v s = .ok S)
    (hc : squeezeBytes s.rateBytes (ceilDiv s.hashSize.toNat 8) ⟨S, 0⟩ = .ok (o, c)) :
    exec (.finalize tb v) s =
      .next (complete (BitVec.ofNat 64 (ceilDiv s.hashSize.toNat 8)) (maskOutput s.hashSize.toNat o)
        { s with sponge := c.sponge, absOff := 0, sqzPos := c.pos, phase := finalPhase s.xof s.hashSize }) := by
  simp only [exec, execFinalize, if_pos hp, hS, hc]

theorem exec_finalize_of_ne {tb : BitVec 3} {v : Byte} {s : State} (hp : s.phase ≠ .absorbing) :
    exec (.finalize tb v) s = .next (failClosed .misuse s) := by
  simp only [exec, execFinalize, if_neg hp, failed]

theorem exec_squeeze_of_ok {n : BitVec 16} {s : State} {o : List Byte} {c : Cursor} (hp : s.phase = .squeezing)
    (hc : squeezeBytes s.rateBytes n.toNat ⟨s.sponge, s.sqzPos⟩ = .ok (o, c)) :
    exec (.squeeze n) s = .next (complete (n.setWidth 64) o { s with sponge := c.sponge, sqzPos := c.pos }) := by
  simp only [exec, execSqueeze, if_pos hp, hc]

theorem exec_squeeze_of_ne {n : BitVec 16} {s : State} (hp : s.phase ≠ .squeezing) :
    exec (.squeeze n) s = .next (failClosed .misuse s) := by
  simp only [exec, execSqueeze, if_neg hp, failed]

/-- CFG_EXPLICIT has no loop that could stop: each of its checks ends in a next state. -/
theorem exists_next_cfgExplicit (cap : BitVec 11) (d : Domain) (b : BitVec 20) (s : State) :
    ∃ t, exec (.cfgExplicit cap d b) s = .next t := by
  simp only [exec, execCfgExplicit, failed]
  split_ifs <;> exact ⟨_, rfl⟩

theorem exists_next_setOutlen (b : BitVec 20) (s : State) : ∃ t, exec (.setOutlen b) s = .next t := by
  simp only [exec, execSetOutlen, failed]
  split_ifs <;> exact ⟨_, rfl⟩

theorem exists_next_init (s : State) : ∃ t, exec .init s = .next t := by
  simp only [exec, execInit, failed]
  split_ifs <;> exact ⟨_, rfl⟩

section Answers

variable {s : State} (h : s.Inv)
include h

theorem exists_next_absorb (p : List Byte) : ∃ t, exec (.absorb p) s = .next t := by
  by_cases hp : s.phase = .absorbing
  · obtain ⟨hrate, -⟩ := h.params (by simp [hp])
    obtain ⟨c, hc, -⟩ := absorbBytes_ok (rateBytes_le_of_rateLegal hrate) p ⟨s.sponge, s.absOff⟩ (h.absorbing hp)
    exact ⟨_, exec_absorb_of_ok hp hc⟩
  · exact ⟨_, exec_absorb_of_ne hp⟩

theorem exists_next_finalize (tb : BitVec 3) (v : Byte) : ∃ t, exec (.finalize tb v) s = .next t := by
  by_cases hp : s.phase = .absorbing
  · obtain ⟨hrate, -⟩ := h.params (by simp [hp])
    have hle := rateBytes_le_of_rateLegal hrate
    obtain ⟨-, hsum, hbytes, hpos⟩ := hrate
    obtain ⟨S, hS⟩ := padAndPermute_ok (t := tb) (v := v) (s := s) (by omega) (by omega)
    obtain ⟨o, c, hc, -⟩ := squeezeBytes_ok hpos hle (ceilDiv s.hashSize.toNat 8) ⟨S, 0⟩ (Nat.zero_le _)
    exact ⟨_, exec_finalize_of_ok hp hS hc⟩
  · exact ⟨_, exec_finalize_of_ne hp⟩

theorem exists_next_squeeze (n : BitVec 16) : ∃ t, exec (.squeeze n) s = .next t := by
  by_cases hp : s.phase = .squeezing
  · obtain ⟨hrate, -⟩ := h.params (by simp [hp])
    obtain ⟨hpos, -, -⟩ := h.squeezing hp
    obtain ⟨o, c, hc, -⟩ := squeezeBytes_ok (rateBytes_pos_of_rateLegal hrate) (rateBytes_le_of_rateLegal hrate)
      n.toNat ⟨s.sponge, s.sqzPos⟩ hpos
    exact ⟨_, exec_squeeze_of_ok hp hc⟩
  · exact ⟨_, exec_squeeze_of_ne hp⟩

/-- No command stops the machine while the invariants hold. -/
theorem exists_next_exec (i : Instr) : ∃ t, exec i s = .next t := by
  cases i with
  | cfgVariant v => exact ⟨_, exec_cfgVariant v s⟩
  | cfgExplicit cap d b => exact exists_next_cfgExplicit cap d b s
  | setOutlen b => exact exists_next_setOutlen b s
  | init => exact exists_next_init s
  | absorb p => exact exists_next_absorb h p
  | finalize tb v => exact exists_next_finalize h tb v
  | squeeze n => exact exists_next_squeeze h n
  | permute => exact ⟨_, exec_permute s⟩

theorem exists_next_runCommand (cmd : Word) (p : List Byte) : ∃ t, runCommand cmd p s = .next t := by
  cases hdec : decode cmd p with
  | illegal => exact ⟨_, runCommand_illegal s hdec⟩
  | length => exact ⟨_, runCommand_length s hdec⟩
  | command i =>
    rw [runCommand_command s hdec]
    exact exists_next_exec h i

theorem exists_next_step : ∃ t, step s = .next t := by
  cases hin : s.inbox with
  | nil => exact ⟨s, by simp only [step, serve, hin]⟩
  | cons m rest =>
    rw [step_of_inbox_cons hin]
    cases m with
    | command cmd p =>
      obtain ⟨t, ht⟩ := exists_next_runCommand (inv_withInbox rest h) cmd p
      exact ⟨respond (commandResponse t) t, by rw [takeMove, ht]; rfl⟩
    | read a => exact ⟨_, rfl⟩
    | reset => exact ⟨_, rfl⟩

end Answers

/-! ## Runs -/

/-- A step takes the oldest pending move and leaves the others. -/
theorem inbox_step {s t : State} (hst : step s = .next t) : t.inbox = s.inbox.tail := by
  obtain ⟨hin, rfl⟩ | ⟨cmd, p, rest, s1, hin, hr, rfl⟩ | ⟨a, rest, hin, rfl⟩ | ⟨rest, hin, rfl⟩ := step_next hst
  · simp [hin]
  · obtain ⟨-, -, hbox⟩ | ⟨e, rfl⟩ := runCommand_next_completes_or_fails hr
    · simp [hin, hbox]
    · simp [hin]
  · simp [hin]
  · simp [hin]

/-- From a state that meets the invariants a run of any length goes on, keeps them and takes one move a step. -/
theorem exists_steps (k : Nat) : ∀ s : State, s.Inv → ∃ t, Steps k s t ∧ t.Inv ∧ t.inbox = s.inbox.drop k := by
  induction k with
  | zero => exact fun s h => ⟨s, .done s, h, rfl⟩
  | succ k ih =>
    intro s h
    obtain ⟨s1, hst⟩ := exists_next_step h
    obtain ⟨t, hsteps, hinv, hbox⟩ := ih s1 (inv_step h hst)
    exact ⟨t, .more hst hsteps, hinv, by rw [hbox, inbox_step hst, List.drop_tail]⟩

/-! ## Absorbing inside the block -/

/-- One byte that does not fill the block: it alone is XORed in, and nothing is permuted (R174). -/
theorem absorbByte_inside {rb : BitVec 8} {c : Cursor} {b : Byte} (hr : rb.toNat ≤ 200)
    (hc : c.pos.toNat + 1 < rb.toNat) :
    ∃ c', absorbByte rb c b = .ok c' ∧ c'.pos.toNat = c.pos.toNat + 1 ∧
      ∀ i (h : i < 200), c'.sponge[i] = if i = c.pos.toNat then c.sponge[i] ^^^ b else c.sponge[i] := by
  have hnext : (c.pos + 1).toNat = c.pos.toNat + 1 := toNat_add_one_of_lt (rb := rb) (by omega)
  have hopen : c.pos + 1 ≠ rb := by
    rintro rfl
    omega
  refine ⟨_, absorbByte_of_lt (by omega), ?_, ?_⟩ <;> rw [if_neg hopen]
  · exact hnext
  · intro i h
    simp only [Vector.getElem_set, eq_comm (a := c.pos.toNat)]
    split_ifs with hi
    · subst hi; rfl
    · rfl

/-- A payload that does not fill the block: byte j goes to offset ABS_OFF + j, and nothing is permuted (R24, R174). -/
theorem absorbBytes_inside {rb : BitVec 8} (hr : rb.toNat ≤ 200) (p : List Byte) :
    ∀ c : Cursor, c.pos.toNat + p.length < rb.toNat →
      ∃ c', absorbBytes rb p c = .ok c' ∧ c'.pos.toNat = c.pos.toNat + p.length ∧
        ∀ i (h : i < 200), c'.sponge[i] =
          if c.pos.toNat ≤ i ∧ i < c.pos.toNat + p.length
          then c.sponge[i] ^^^ p[i - c.pos.toNat]?.getD 0 else c.sponge[i] := by
  induction p with
  | nil => exact fun c _ => ⟨c, rfl, rfl, fun i h => by rw [if_neg (by simp)]⟩
  | cons b rest ih =>
    intro c hc
    rw [List.length_cons] at hc
    obtain ⟨c1, h1, hpos1, hS1⟩ := absorbByte_inside (b := b) hr (show c.pos.toNat + 1 < rb.toNat by omega)
    obtain ⟨c2, h2, hpos2, hS2⟩ := ih c1 (by omega)
    refine ⟨c2, by rw [absorbBytes, h1]; exact h2, by rw [hpos2, hpos1, List.length_cons]; omega, fun i h => ?_⟩
    rw [hS2 i h, hS1 i h, hpos1, List.length_cons]
    obtain hlt | rfl | hgt := Nat.lt_trichotomy i c.pos.toNat
    · rw [if_neg (by omega), if_neg (Nat.ne_of_lt hlt), if_neg (by omega)]
    · rw [if_neg (by omega), if_pos rfl, if_pos (by omega), Nat.sub_self]
      rfl
    · have hidx : i - c.pos.toNat = i - (c.pos.toNat + 1) + 1 := by omega
      rw [hidx, List.getElem?_cons_succ, if_neg (Nat.ne_of_gt hgt)]
      exact if_congr (by omega) rfl rfl

/-! ## The lane view and the register images -/

/-- Bit z of a lane is bit z mod 8 of its byte z div 8 (R22). -/
theorem getLsbD_lane (S : Sponge) (k : Fin 25) {z : Nat} (hz : z < 64) :
    (lane S k).getLsbD z = (S[8 * k.val + z / 8]'(by omega)).getLsbD (z % 8) := by
  have hin : z % 8 < 8 := Nat.mod_lt _ (by decide)
  rw [← laneByte_lane S k (z / 8) (by omega), laneByte, BitVec.getLsbD_extractLsb', decide_eq_true hin,
    Bool.true_and, Nat.div_add_mod]

/-- A lane write reaches the eight bytes of its lane and no other (R22). -/
theorem getElem_setLane (S : Sponge) (k : Fin 25) (v : Lane) {i : Nat} (hi : i < 200) :
    (setLane S k v)[i] = if i / 8 = k.val then laneByte v (i % 8) else S[i] := by
  rw [setLane, getElem_bytesOf _ _ hi, Vector.getElem_set]
  by_cases hk : k.val = i / 8
  · rw [if_pos hk, if_pos hk.symm]
  · rw [if_neg hk, if_neg (Ne.symm hk), getElem_lanesOf _ _ (by omega), laneByte_lane _ _ _ (by omega)]
    simp only [Nat.div_add_mod]

@[simp] theorem lane_zero (k : Fin 25) : lane Sponge.zero k = 0 := by
  simp [lane]

/-- READ in the LANE window answers the lane at its address (R35, R63). -/
theorem readRegister_lane (s : State) {k : Nat} (hk : k < 25) :
    readRegister s (0x100 + 8 * k) = lane s.sponge ⟨k, hk⟩ := by
  have haligned : ¬(0x100 + 8 * k) % 8 ≠ 0 := by omega
  have hwindow : 0x100 ≤ 0x100 + 8 * k ∧ 0x100 + 8 * k ≤ 0x1C0 := by omega
  have hindex : (0x100 + 8 * k - 0x100) / 8 = k := by omega
  rw [readRegister, if_neg haligned, if_neg (by omega), if_neg (by omega), if_neg (by omega), if_neg (by omega),
    if_pos hwindow, hindex, laneWindow, dif_pos hk]

end Sys2Proof.ArchState

/-- Settles O51, by `ArchState.inv_step`: each command keeps the invariants, and so do the host's other moves. -/
theorem stepKeepsInvariants : Obligations.StepKeepsInvariants :=
  fun _ _ h hst => ArchState.inv_step h hst

/-- Settles O9: a lane's bits and bytes are those of its eight bytes of S, read and written. -/
theorem laneViewAliasesBytes : Obligations.LaneViewAliasesBytes :=
  fun S k => ⟨fun _ hz => ArchState.getLsbD_lane S k hz, fun v _ hi => ArchState.getElem_setLane S k v hi⟩

/-- Settles O21: outside CFG_* a command that completes or fails closed updates none of the eight registers. -/
theorem parametersChangeOnlyByCfg : Obligations.ParametersChangeOnlyByCfg := by
  intro i s t hx hvariant hexplicit
  cases i with
  | cfgVariant v => exact absurd rfl hvariant
  | cfgExplicit cap d h => exact absurd rfl hexplicit
  | setOutlen b =>
    obtain ⟨-, -, -, rfl⟩ | ⟨-, rfl⟩ | ⟨-, -, rfl⟩ | ⟨-, -, -, rfl⟩ := exec_setOutlen_next hx <;> simp
  | init => obtain ⟨-, rfl⟩ | ⟨-, rfl⟩ := exec_init_next hx <;> simp
  | absorb p => obtain ⟨-, c, -, rfl⟩ | ⟨-, rfl⟩ := exec_absorb_next hx <;> simp
  | finalize tb v => obtain ⟨-, S, o, c, -, -, rfl⟩ | ⟨-, rfl⟩ := exec_finalize_next hx <;> simp
  | squeeze n => obtain ⟨-, o, c, -, rfl⟩ | ⟨-, rfl⟩ := exec_squeeze_next hx <;> simp
  | permute => simp [exec_permute_next hx]

/-- Settles O25, by `ArchState.absorbBytes_inside` from the cursor (S, ABS_OFF). -/
theorem absorbInsideBlockChangesOnlyItsBytes : Obligations.AbsorbInsideBlockChangesOnlyItsBytes := by
  rintro p s ⟨hp, ⟨hrate, -⟩, -⟩ hroom
  obtain ⟨c, hc, hpos, hS⟩ :=
    ArchState.absorbBytes_inside (ArchState.rateBytes_le_of_rateLegal hrate) p ⟨s.sponge, s.absOff⟩ hroom
  exact ⟨_, ArchState.exec_absorb_of_ok hp hc, hpos, hS⟩

/-- Settles O45: a command keeps ERR_SEEN or adds its own code to it, and of the other moves only a reset writes it. -/
theorem errorsSeenAreSticky : Obligations.ErrorsSeenAreSticky := by
  refine ⟨fun s t hst hreset j hj => ?_, fun cmd p s t hr hne => ?_⟩
  · obtain ⟨-, rfl⟩ | ⟨cmd, p, rest, s1, -, hr, rfl⟩ | ⟨a, rest, -, rfl⟩ | ⟨rest, hin, rfl⟩ := step_next hst
    · exact hj
    · rw [respond_errSeen]
      exact ArchState.errSeen_runCommand_of_set hr hj
    · exact hj
    · exact absurd (by rw [hin]; rfl) hreset
  · obtain ⟨hlast, -, -⟩ | ⟨e, rfl⟩ := ArchState.runCommand_next_completes_or_fails hr
    · exact absurd hlast hne
    · exact ArchState.errSeen_failClosed_self e s

/-- Settles O52, by `ArchState.exists_next_step`. -/
theorem stepNeverStops : Obligations.StepNeverStops := fun _ h => ArchState.exists_next_step h

/-- Settles O53, by induction on the number of steps (`ArchState.exists_steps`) from the reset state. -/
theorem everyHostRunGoesOn : Obligations.EveryHostRunGoesOn :=
  fun moves k _ => ArchState.exists_steps k _ (ArchState.inv_withInbox moves ArchState.inv_reset)

/-- Settles O49: the first four images and the two registers are constants, and a LANE read gives a lane of the zero
state. -/
theorem resetImages : Obligations.ResetImages :=
  ⟨rfl, rfl, rfl, rfl, fun _ hk => (ArchState.readRegister_lane _ hk).trans (ArchState.lane_zero _), rfl, rfl⟩

/-- Settles O50, by `ArchState.inv_reset`. -/
theorem resetMeetsInvariants : Obligations.ResetMeetsInvariants := ArchState.inv_reset

/-- Settles O57: the fields below a field drop off the image, and the field is then its low part. -/
theorem statusFields : Obligations.StatusFields := by
  intro s
  unfold field BitVec.extractLsb statusImage
  simp (disch := decide) only [BitVec.extractLsb'_append_eq_of_le]
  exact ⟨BitVec.extractLsb'_append_eq_right, BitVec.extractLsb'_append_eq_right, BitVec.extractLsb'_append_eq_right,
    BitVec.extractLsb'_append_eq_right, BitVec.extractLsb'_append_eq_right, BitVec.extractLsb'_append_eq_right,
    BitVec.extractLsb'_eq_self⟩

/-- Settles O58, as O57; the reserved fields at the top are all that is left of their image. -/
theorem paramFields : Obligations.ParamFields := by
  intro s
  unfold field BitVec.extractLsb param0Image param1Image
  simp (disch := decide) only [BitVec.extractLsb'_append_eq_of_le]
  refine ⟨?_, ?_, ?_, ?_, ?_, ?_, ?_, ?_, ?_, ?_, ?_, ?_⟩
  case refine_7 => exact BitVec.extractLsb'_eq_self
  case refine_12 => exact BitVec.extractLsb'_eq_self
  all_goals exact BitVec.extractLsb'_append_eq_right
end

section
/-! PROOF. The two statements of 20_memory.md: the byte order of a carried command word (R62) and READ (R63). -/

open Sys2Proof
open Sys2Proof.Machine

namespace Sys2Proof.MemoryAccess

/-! ## The transport of a command word (R62) -/

@[simp] theorem length_transportBytes (cmd : Word) : (transportBytes cmd).length = 8 := by
  rw [transportBytes, List.length_map, List.length_range]

theorem getElem_transportBytes (cmd : Word) {j : Nat} (h : j < (transportBytes cmd).length) :
    (transportBytes cmd)[j] = cmd.extractLsb' (8 * j) 8 := by
  simp only [transportBytes, List.getElem_map, List.getElem_range]

/-- Neighbouring bytes join to one longer field of the word; all eight join to the whole word. -/
theorem wordOfTransport_transportBytes (cmd : Word) : wordOfTransport (transportBytes cmd) = some cmd := by
  have hlist : transportBytes cmd =
      [cmd.extractLsb' 0 8, cmd.extractLsb' 8 8, cmd.extractLsb' 16 8, cmd.extractLsb' 24 8,
        cmd.extractLsb' 32 8, cmd.extractLsb' 40 8, cmd.extractLsb' 48 8, cmd.extractLsb' 56 8] := rfl
  rw [hlist, wordOfTransport]
  simp only [BitVec.extractLsb'_append_extractLsb'_eq_extractLsb', BitVec.extractLsb'_eq_self]

/-! ## READ (R63) -/

/-- A step that takes a read adds the register's value to the answers. -/
theorem step_of_inbox_read {s : State} {addr : Nat} {rest : List HostMove} (h : s.inbox = .read addr :: rest) :
    step s = .next { s with inbox := rest, outbox := s.outbox ++ [.read (readRegister s addr)] } := by
  rw [step_of_inbox_cons h]
  rfl

theorem readRegister_misaligned (s : State) {addr : Nat} (h : addr % 8 ≠ 0) : readRegister s addr = 0 := by
  rw [readRegister, if_pos h]

/-- Past PARAM1 there is no register but the lanes (R71). -/
theorem readRegister_reserved (s : State) {addr : Nat} (hlow : 0x020 ≤ addr) (hout : addr < 0x100 ∨ 0x1C0 < addr) :
    readRegister s addr = 0 := by
  by_cases haligned : addr % 8 ≠ 0
  · exact readRegister_misaligned s haligned
  · have hwindow : ¬(0x100 ≤ addr ∧ addr ≤ 0x1C0) := by omega
    rw [readRegister, if_neg haligned, if_neg (by omega), if_neg (by omega), if_neg (by omega), if_neg (by omega),
      if_neg hwindow]

end Sys2Proof.MemoryAccess

/-- Settles O7, by `MemoryAccess.wordOfTransport_transportBytes` for the way back. -/
theorem transportIsLittleEndian : Obligations.TransportIsLittleEndian :=
  fun cmd => ⟨fun _ h => MemoryAccess.getElem_transportBytes cmd h, MemoryAccess.length_transportBytes cmd,
    MemoryAccess.wordOfTransport_transportBytes cmd⟩

/-- Settles O56: the answer is `readRegister` at the address, which the clauses take range by range. -/
theorem readAnswersTheMap : Obligations.ReadAnswersTheMap := by
  intro s addr rest hin
  refine ⟨readRegister s addr, MemoryAccess.step_of_inbox_read hin, ?misaligned, ?status, ?result, ?param0, ?param1,
    ?lanes, ?gap, ?above⟩
  case misaligned => exact MemoryAccess.readRegister_misaligned s
  case status => rintro rfl; rfl
  case result => rintro rfl; rfl
  case param0 => rintro rfl; rfl
  case param1 => rintro rfl; rfl
  case lanes => rintro k rfl; exact ArchState.readRegister_lane s k.isLt
  case gap => exact fun hlow hhigh => MemoryAccess.readRegister_reserved s hlow (.inl hhigh)
  case above => exact fun h => MemoryAccess.readRegister_reserved s (by omega) (.inr (by omega))
end

section
/-! PROOF. The statements of 30_encoding.md: the decoder and the encoder are inverse to each other (R90, R94), the opcode
table (R92), ABSORB_LONG (R95) and the unused bits of TBYTE (R88). -/

open Sys2Proof
open Sys2Proof.Machine
open Sys2Proof.Claims

namespace Sys2Proof.Encoding

/-! ## Fields of composed words -/

@[simp] theorem field_or (a b : Word) (hi lo : Nat) : field (a ||| b) hi lo = field a hi lo ||| field b hi lo := by
  simp [field, BitVec.extractLsb, BitVec.extractLsb'_or]

/-- A number below the field, such as the opcode below every operand, leaves no bit in it. -/
@[simp] theorem field_ofNat_of_lt {a hi lo : Nat} (h : a < 2 ^ lo) : field (BitVec.ofNat 64 a) hi lo = 0#_ := by
  apply BitVec.eq_of_getLsbD_eq
  intro i hi'
  have habove : a.testBit (lo + i) = false :=
    Nat.testBit_lt_two_pow (Nat.lt_of_lt_of_le h (Nat.pow_le_pow_right (by decide) (Nat.le_add_right lo i)))
  rw [getLsbD_field, BitVec.getLsbD_ofNat, habove]
  simp

/-- The operand at the place of the field, cut to the field's width. -/
@[simp] theorem field_shiftLeft_self {w hi lo : Nat} (x : BitVec w) (hle : lo ≤ hi) (hhi : hi < 64) :
    field (x.setWidth 64 <<< lo) hi lo = x.setWidth (hi - lo + 1) := by
  apply BitVec.eq_of_getLsbD_eq
  intro i hi'
  have hin : lo + i < 64 := by omega
  have hi64 : i < 64 := by omega
  rw [getLsbD_field, BitVec.getLsbD_shiftLeft, BitVec.getLsbD_setWidth, BitVec.getLsbD_setWidth]
  simp [hi', hin, hi64]

/-- An operand wholly above or wholly below the field leaves no bit in it. -/
@[simp] theorem field_shiftLeft_of_disjoint {w hi lo place : Nat} (x : BitVec w) (hle : lo ≤ hi)
    (h : hi < place ∨ place + w ≤ lo) : field (x.setWidth 64 <<< place) hi lo = 0#_ := by
  apply BitVec.eq_of_getLsbD_eq
  intro i hi'
  rw [getLsbD_field, BitVec.getLsbD_shiftLeft, BitVec.getLsbD_setWidth]
  obtain h | h := h
  · have hbelow : lo + i < place := by omega
    simp [hbelow]
  · have habove : x.getLsbD (lo + i - place) = false := BitVec.getLsbD_of_ge _ _ (by omega)
    simp [habove]

/-! ## Rows of the opcode table (R92) -/

/-- Every row fixes the opcode byte, besides its reserved bits. -/
theorem mask_eq (op : Opcode) : op.mask = op.reservedMask ||| 0xFF#64 := by
  cases op <;> decide

/-- The opcode byte and the reserved bits are two parts of the mask, and the match lies in the first. -/
theorem row_parts (op : Opcode) :
    op.mask &&& 0xFF#64 = 0xFF#64 ∧ op.code.setWidth 64 &&& 0xFF#64 = op.code.setWidth 64 ∧
      op.mask &&& op.reservedMask = op.reservedMask ∧ op.code.setWidth 64 &&& op.reservedMask = 0 := by
  cases op <;> decide

/-- The opcode byte of a word is its lowest field. -/
theorem and_opcodeByte (cmd : Word) : cmd &&& 0xFF#64 = (field cmd 7 0).setWidth 64 := by
  apply BitVec.eq_of_getLsbD_eq
  intro i hi
  have hmask : (0xFF#64).getLsbD i = decide (i < 8) := by
    revert i
    decide
  rw [BitVec.getLsbD_and, hmask, BitVec.getLsbD_setWidth, getLsbD_field, Nat.zero_add]
  simp [hi, Bool.and_comm]

theorem opcodeOf_eq_some_iff {c : BitVec 8} {op : Opcode} : opcodeOf c = some op ↔ c = op.code :=
  ⟨fun h => (code_of_opcodeOf h).symm, fun h => h ▸ opcodeOf_code op⟩

/-- The first two checks of Decode (R90), on opcode and reserved bits, are the one mask and match of R92. -/
theorem rowMatch_iff {cmd : Word} {op : Opcode} :
    cmd &&& op.mask = op.code.setWidth 64 ↔ opcodeOf (field cmd 7 0) = some op ∧ cmd &&& op.reservedMask = 0 := by
  rw [opcodeOf_eq_some_iff]
  constructor
  · intro h
    obtain ⟨hmaskByte, hcodeByte, hmaskReserved, hcodeReserved⟩ := row_parts op
    constructor
    · have hopc : (field cmd 7 0).setWidth 64 = op.code.setWidth 64 := by
        rw [← and_opcodeByte, ← hmaskByte, ← BitVec.and_assoc, h, hcodeByte]
      simpa using congrArg (BitVec.setWidth 8) hopc
    · rw [← hmaskReserved, ← BitVec.and_assoc, h, hcodeReserved]
  · rintro ⟨hopc, hreserved⟩
    rw [mask_eq, BitVec.and_or_distrib_left, hreserved, and_opcodeByte, hopc]
    exact BitVec.zero_or

theorem tableMask_eq (op : Opcode) : tableMask op = op.mask := by
  cases op <;> rfl

theorem tableMatch_eq (op : Opcode) : tableMatch op = op.code.setWidth 64 := by
  cases op <;> rfl

/-- The encoded word of every command matches its row. -/
theorem rowMatch_encodeWord (i : Instr) : encodeWord i &&& i.opcode.mask = i.opcode.code.setWidth 64 := by
  cases i with
  | cfgVariant v => exact Laws.RowMatch.cfgVariant v
  | cfgExplicit cap dom hsize => exact Laws.RowMatch.cfgExplicit cap dom hsize
  | setOutlen bits => exact Laws.RowMatch.setOutlen bits
  | init => exact Laws.RowMatch.init
  | absorb payload => exact Laws.RowMatch.absorb payload
  | finalize tbits tbyte => exact Laws.RowMatch.finalize tbits tbyte
  | squeeze n => exact Laws.RowMatch.squeeze n
  | permute => exact Laws.RowMatch.permute

/-! ## What Decode accepts (R90) -/

/-- The operand fields of a word hold the operands of i, in the formats of R82 to R88. -/
def HoldsOperands (cmd : Word) : Instr → Prop
  | .cfgVariant v => field cmd 11 8 = v.code
  | .cfgExplicit cap dom hsize => field cmd 18 8 = cap ∧ field cmd 21 20 = dom.code ∧ field cmd 43 24 = hsize
  | .setOutlen bits => field cmd 27 8 = bits
  | .init => True
  | .absorb payload => (field cmd 23 8).toNat = payload.length
  | .finalize tbits tbyte => field cmd 10 8 = tbits ∧ field cmd 23 16 = tbyte
  | .squeeze n => field cmd 23 8 = n
  | .permute => True

theorem variantOf_eq_some_iff {c : BitVec 4} {v : Variant} : variantOf c = some v ↔ c = v.code :=
  ⟨fun h => (code_of_variantOf h).symm, fun h => h ▸ variantOf_code v⟩

theorem domainOf_eq_some_iff {c : BitVec 2} {d : Domain} : domainOf c = some d ↔ c = d.code :=
  ⟨fun h => (code_of_domainOf h).symm, fun h => h ▸ domainOf_code d⟩

/-- A word and payload that hold the operands of i pass the value and payload checks, and give i. -/
theorem decodeFields_of_holdsOperands {cmd : Word} {i : Instr} (h : HoldsOperands cmd i) :
    decodeFields i.opcode cmd (encodePayload i) = .command i := by
  cases i with
  | cfgVariant v => simp only [decodeFields, Instr.opcode, variantOf_eq_some_iff.mpr h]; rfl
  | cfgExplicit cap dom hsize =>
    obtain ⟨rfl, hdom, rfl⟩ := h
    simp only [decodeFields, Instr.opcode, domainOf_eq_some_iff.mpr hdom]; rfl
  | setOutlen bits => cases h; rfl
  | init => rfl
  | absorb payload => exact if_pos ((hasLength_iff _ _).mpr h.symm)
  | finalize tbits tbyte => obtain ⟨rfl, rfl⟩ := h; rfl
  | squeeze n => cases h; rfl
  | permute => rfl

/-- All that a decoded command can be. -/
theorem holdsOperands_of_decodeFields {op : Opcode} {cmd : Word} {p : List Byte} {i : Instr}
    (h : decodeFields op cmd p = .command i) : i.opcode = op ∧ HoldsOperands cmd i ∧ encodePayload i = p := by
  cases op with
  | cfgVariant =>
    simp only [decodeFields] at h
    split at h
    · cases h
    · obtain ⟨rfl, rfl⟩ := withoutPayload_eq_command.mp h
      exact ⟨rfl, variantOf_eq_some_iff.mp ‹_›, rfl⟩
  | cfgExplicit =>
    simp only [decodeFields] at h
    split at h
    · cases h
    · obtain ⟨rfl, rfl⟩ := withoutPayload_eq_command.mp h
      exact ⟨rfl, ⟨rfl, domainOf_eq_some_iff.mp ‹_›, rfl⟩, rfl⟩
  | absorb =>
    simp only [decodeFields] at h
    split at h
    · cases h
      exact ⟨rfl, ((hasLength_iff _ _).mp ‹_›).symm, rfl⟩
    · cases h
  | setOutlen => obtain ⟨rfl, rfl⟩ := withoutPayload_eq_command.mp h; exact ⟨rfl, rfl, rfl⟩
  | init => obtain ⟨rfl, rfl⟩ := withoutPayload_eq_command.mp h; exact ⟨rfl, trivial, rfl⟩
  | finalize => obtain ⟨rfl, rfl⟩ := withoutPayload_eq_command.mp h; exact ⟨rfl, ⟨rfl, rfl⟩, rfl⟩
  | squeeze => obtain ⟨rfl, rfl⟩ := withoutPayload_eq_command.mp h; exact ⟨rfl, rfl, rfl⟩
  | permute => obtain ⟨rfl, rfl⟩ := withoutPayload_eq_command.mp h; exact ⟨rfl, trivial, rfl⟩

/-- Past the checks on opcode and reserved bits, Decode reads the fields of the row. -/
theorem decode_eq_command_iff_row {cmd : Word} {p : List Byte} {i : Instr} :
    decode cmd p = .command i ↔
      ∃ op, cmd &&& op.mask = op.code.setWidth 64 ∧ decodeFields op cmd p = .command i := by
  simp only [rowMatch_iff, decode]
  cases opcodeOf (field cmd 7 0) with
  | none => simp
  | some op =>
    by_cases hreserved : cmd &&& op.reservedMask = 0
    · simp only [Option.some.injEq, if_pos hreserved]
      exact ⟨fun h => ⟨op, ⟨rfl, hreserved⟩, h⟩, fun ⟨_, ⟨hop, _⟩, h⟩ => hop ▸ h⟩
    · simp only [Option.some.injEq, if_neg hreserved]
      exact ⟨nofun, fun ⟨_, ⟨hop, h⟩, _⟩ => absurd (hop ▸ h) hreserved⟩

/-- A transaction decodes to i exactly if its word matches the row of i and holds the operands of i, and its payload is
that of i. -/
theorem decode_eq_command_iff {cmd : Word} {p : List Byte} {i : Instr} :
    decode cmd p = .command i ↔
      cmd &&& i.opcode.mask = i.opcode.code.setWidth 64 ∧ HoldsOperands cmd i ∧ encodePayload i = p := by
  rw [decode_eq_command_iff_row]
  constructor
  · rintro ⟨op, hrow, hdec⟩
    obtain ⟨rfl, hfields, hpay⟩ := holdsOperands_of_decodeFields hdec
    exact ⟨hrow, hfields, hpay⟩
  · rintro ⟨hrow, hfields, rfl⟩
    exact ⟨_, hrow, decodeFields_of_holdsOperands hfields⟩

/-! ## Encoding -/

/-- The payload fits the 16-bit field N (R87). -/
theorem wellFormed_absorb_iff {p : List Byte} : (Instr.absorb p).wellFormed = true ↔ p.length ≤ 65535 := by
  rw [Instr.wellFormed, Nat.ble_eq, Config.maxChunk]

theorem wellFormed_of_holdsOperands {cmd : Word} {i : Instr} (h : HoldsOperands cmd i) : i.wellFormed = true := by
  cases i with
  | absorb payload =>
    have hlt : (field cmd 23 8).toNat < 65536 := (field cmd 23 8).isLt
    have hlen : (field cmd 23 8).toNat = payload.length := h
    exact wellFormed_absorb_iff.mpr (by omega)
  | _ => rfl

/-- The encoder puts every operand of a well-formed command at its place (R94). -/
theorem holdsOperands_encodeWord {i : Instr} (h : i.wellFormed = true) : HoldsOperands (encodeWord i) i := by
  cases i with
  | cfgVariant v => simp (disch := decide) [HoldsOperands, encodeWord]
  | cfgExplicit cap dom hsize => simp (disch := decide) [HoldsOperands, encodeWord]
  | setOutlen bits => simp (disch := decide) [HoldsOperands, encodeWord]
  | init => trivial
  | absorb payload =>
    have hlen := wellFormed_absorb_iff.mp h
    have hfits : payload.length % 65536 = payload.length := Nat.mod_eq_of_lt (by omega)
    simp (disch := decide) [HoldsOperands, encodeWord, hfits]
  | finalize tbits tbyte => simp (disch := decide) [HoldsOperands, encodeWord]
  | squeeze n => simp (disch := decide) [HoldsOperands, encodeWord]
  | permute => trivial

/-- The bits of a format that are not fixed: its operand fields, as (high bit, low bit). -/
def operandFields : Opcode → List (Nat × Nat)
  | .cfgVariant => [(11, 8)]
  | .cfgExplicit => [(18, 8), (21, 20), (43, 24)]
  | .setOutlen => [(27, 8)]
  | .init => []
  | .absorb => [(23, 8)]
  | .finalize => [(10, 8), (23, 16)]
  | .squeeze => [(23, 8)]
  | .permute => []

/-- Every bit of a word is fixed by its row or lies in an operand field. -/
theorem fixed_or_operand (op : Opcode) :
    ∀ j < 64, op.mask.getLsbD j = true ∨ ∃ f ∈ operandFields op, f.2 ≤ j ∧ j ≤ f.1 := by
  cases op <;> decide

theorem field_eq_of_holdsOperands {cmd cmd' : Word} {i : Instr} (h : HoldsOperands cmd i)
    (h' : HoldsOperands cmd' i) : ∀ f ∈ operandFields i.opcode, field cmd f.1 f.2 = field cmd' f.1 f.2 := by
  cases i with
  | absorb payload => simpa [operandFields, Instr.opcode] using BitVec.eq_of_toNat_eq (Eq.trans h h'.symm)
  | _ => simp_all [HoldsOperands, operandFields, Instr.opcode]

/-- Words of one row with the same operands agree on their fixed bits and on their fields, so on every bit. -/
theorem eq_of_holdsOperands {cmd cmd' : Word} {i : Instr} (hmask : cmd &&& i.opcode.mask = cmd' &&& i.opcode.mask)
    (h : HoldsOperands cmd i) (h' : HoldsOperands cmd' i) : cmd = cmd' := by
  apply BitVec.eq_of_getLsbD_eq
  intro j hj
  obtain hfixed | ⟨f, hf, hlo, hhi⟩ := fixed_or_operand i.opcode j hj
  · have hbit := congrArg (fun w => w.getLsbD j) hmask
    simpa [hfixed] using hbit
  · have hbit := congrArg (fun x => x.getLsbD (j - f.2)) (field_eq_of_holdsOperands h h' f hf)
    have hin : j - f.2 < f.1 - f.2 + 1 := by omega
    simpa only [getLsbD_field, hin, decide_true, Bool.true_and, Nat.add_sub_cancel' hlo] using hbit

/-! ## Which words are commands (R92) -/

theorem exists_variant_code {c : BitVec 4} : (∃ v : Variant, c = v.code) ↔ c.toNat ≤ 5 := by
  simp only [← variantOf_eq_some_iff, ← Option.isSome_iff_exists]
  revert c
  decide

theorem exists_domain_code {c : BitVec 2} : (∃ d : Domain, c = d.code) ↔ c.toNat ≤ 1 := by
  simp only [← domainOf_eq_some_iff, ← Option.isSome_iff_exists]
  revert c
  decide

/-- The value checks of R90 are all that an operand field can fail: only VARIANT and DOM have codes of no operand. -/
theorem exists_holdsOperands_iff {cmd : Word} {op : Opcode} :
    (∃ i : Instr, i.opcode = op ∧ HoldsOperands cmd i) ↔ valueChecks op cmd := by
  cases op with
  | cfgVariant =>
    constructor
    · rintro ⟨i, hop, h⟩
      cases i with
      | cfgVariant v => exact ⟨fun _ => exists_variant_code.mp ⟨v, h⟩, nofun⟩
      | _ => cases hop
    · rintro ⟨hvariant, -⟩
      obtain ⟨v, hv⟩ := exists_variant_code.mpr (hvariant rfl)
      exact ⟨.cfgVariant v, rfl, hv⟩
  | cfgExplicit =>
    constructor
    · rintro ⟨i, hop, h⟩
      cases i with
      | cfgExplicit cap d b =>
        obtain ⟨-, hdom, -⟩ := h
        exact ⟨nofun, fun _ => exists_domain_code.mp ⟨d, hdom⟩⟩
      | _ => cases hop
    · rintro ⟨-, hdom⟩
      obtain ⟨d, hd⟩ := exists_domain_code.mpr (hdom rfl)
      exact ⟨.cfgExplicit _ d _, rfl, rfl, hd, rfl⟩
  | setOutlen => exact iff_of_true ⟨.setOutlen _, rfl, rfl⟩ ⟨nofun, nofun⟩
  | init => exact iff_of_true ⟨.init, rfl, trivial⟩ ⟨nofun, nofun⟩
  | absorb =>
    exact iff_of_true ⟨.absorb (List.replicate (field cmd 23 8).toNat 0), rfl, List.length_replicate.symm⟩
      ⟨nofun, nofun⟩
  | finalize => exact iff_of_true ⟨.finalize _ _, rfl, rfl, rfl⟩ ⟨nofun, nofun⟩
  | squeeze => exact iff_of_true ⟨.squeeze _, rfl, rfl⟩ ⟨nofun, nofun⟩
  | permute => exact iff_of_true ⟨.permute, rfl, trivial⟩ ⟨nofun, nofun⟩

/-! ## ABSORB_LONG (R95) -/

/-- The payloads of the first n ABSORBs: consecutive chunks of MAX_CHUNK bytes. -/
def chunks (n : Nat) (bytes : List Byte) : List (List Byte) :=
  (List.range n).map fun i => (bytes.drop (i * Config.maxChunk)).take Config.maxChunk

/-- The first n chunks hold the first n · MAX_CHUNK bytes. -/
theorem flatten_chunks (n : Nat) (bytes : List Byte) : (chunks n bytes).flatten = bytes.take (n * Config.maxChunk) := by
  induction n with
  | zero => simp [chunks]
  | succ n ih =>
    rw [chunks, List.range_succ, List.map_append, List.flatten_append, ← chunks, ih, Nat.succ_mul, List.take_add]
    simp

theorem absorbLong_eq (bytes : List Byte) :
    absorbLong bytes = (chunks (ceilDiv bytes.length Config.maxChunk) bytes).map .absorb := by
  rw [absorbLong, chunks, List.map_map]
  rfl

theorem flatMap_encodePayload_absorbs (ps : List (List Byte)) :
    (ps.map Instr.absorb).flatMap encodePayload = ps.flatten := by
  rw [List.flatMap_map]
  exact List.flatMap_id

/-- `ceil_div(a, b)` is the least number of blocks of b that hold a (R11). -/
theorem ceilDiv_le_iff {a b c : Nat} (hb : 0 < b) : ceilDiv a b ≤ c ↔ a ≤ c * b := by
  rw [ceilDiv, ← Nat.ceilDiv_eq_add_pred_div, ceilDiv_le_iff_le_smul hb, smul_eq_mul, Nat.mul_comm]

theorem length_absorbLong (bytes : List Byte) :
    (absorbLong bytes).length = ceilDiv bytes.length Config.maxChunk := by
  rw [absorbLong, List.length_map, List.length_range]

theorem wellFormed_of_mem_absorbLong {bytes : List Byte} {i : Instr} (h : i ∈ absorbLong bytes) :
    i.wellFormed = true := by
  obtain ⟨k, -, rfl⟩ := List.mem_map.mp h
  exact wellFormed_absorb_iff.mpr (List.length_take_le _ _)

/-- `ceil_div(L, MAX_CHUNK)` chunks are enough to hold all the bytes. -/
theorem flatten_chunks_ceilDiv (bytes : List Byte) :
    (chunks (ceilDiv bytes.length Config.maxChunk) bytes).flatten = bytes := by
  rw [flatten_chunks, List.take_of_length_le ((ceilDiv_le_iff (by decide)).mp (Nat.le_refl _))]

/-- The bytes do not fit the chunks up to k when another follows, so chunk k is full. -/
theorem length_absorbLong_chunk {bytes : List Byte} {k : Nat} (h : k < (absorbLong bytes).length - 1) :
    ((absorbLong bytes)[k]?.map fun i => (encodePayload i).length) = some Config.maxChunk := by
  rw [length_absorbLong] at h
  have hfull : (k + 1) * Config.maxChunk < bytes.length := by
    rw [← Nat.not_le, ← ceilDiv_le_iff (by decide)]
    omega
  rw [absorbLong, List.getElem?_map, List.getElem?_range (by omega)]
  simp only [Option.map_some, encodePayload, List.length_take, List.length_drop, Option.some.injEq]
  rw [Nat.succ_mul] at hfull
  omega

/-- An ABSORB of a state ready to absorb completes, runs the loop of R173 and leaves the state ready to absorb. -/
theorem exec_absorb_absorbing (p : List Byte) {s : State} (h : s.Absorbing) :
    ∃ t, exec (.absorb p) s = .next t ∧ t.Absorbing ∧ t.rateBytes = s.rateBytes ∧
      absorbBytes s.rateBytes p ⟨s.sponge, s.absOff⟩ = .ok ⟨t.sponge, t.absOff⟩ := by
  obtain ⟨hp, hparams, hin⟩ := h
  have hrate : s.RateLegal := hparams.left
  obtain ⟨c, hc, hlt, -⟩ := absorbBytes_ok (ArchState.rateBytes_le_of_rateLegal hrate) p ⟨s.sponge, s.absOff⟩ hin
  exact ⟨_, ArchState.exec_absorb_of_ok hp hc, ⟨hp, hparams, hlt⟩, rfl, hc⟩

/-- ABSORBs one after the other complete and run the loop of R173 over their joined payloads. -/
theorem runAll_absorbs (ps : List (List Byte)) : ∀ s : State, s.Absorbing →
    ∃ t, runAll (ps.map .absorb) s = .next t ∧
      absorbBytes s.rateBytes ps.flatten ⟨s.sponge, s.absOff⟩ = .ok ⟨t.sponge, t.absOff⟩ := by
  induction ps with
  | nil => exact fun s _ => ⟨s, rfl, rfl⟩
  | cons p rest ih =>
    intro s hs
    obtain ⟨s1, hx, hs1, hrate, hp⟩ := exec_absorb_absorbing p hs
    obtain ⟨t, hrun, hrest⟩ := ih s1 hs1
    refine ⟨t, by rw [List.map_cons, runAll, hx]; exact hrun, ?_⟩
    rw [List.flatten_cons, absorbBytes_append, hp, ← hrate]
    exact hrest

/-! ## TBYTE (R88) -/

/-- Only the low n bits of a value give positions. -/
theorem setBits_congr {w : Nat} {v v' : BitVec w} {n : Nat} (base : Nat)
    (h : ∀ i < n, v.getLsbD i = v'.getLsbD i) : setBits v n base = setBits v' n base := by
  rw [setBits, setBits, List.filter_congr fun k hk => h k (List.mem_range.mp hk)]

theorem padAndPermute_congr {t : BitVec 3} {v w : Byte} (s : State)
    (h : ∀ i < t.toNat, v.getLsbD i = w.getLsbD i) : padAndPermute t v s = padAndPermute t w s := by
  simp only [padAndPermute, tailPositions, setBits_congr _ h]

end Sys2Proof.Encoding

/-- Settles O1: the encoded word matches its row and holds the operands, which is all that Decode asks. -/
theorem decodeOfEncode : Obligations.DecodeOfEncode := fun i h =>
  Encoding.decode_eq_command_iff.mpr ⟨Encoding.rowMatch_encodeWord i, Encoding.holdsOperands_encodeWord h, rfl⟩

/-- Settles O2: the word and the encoded word match the same row and hold the same operands, so no bit is left in which
they could differ. -/
theorem encodeOfDecode : Obligations.EncodeOfDecode := by
  intro cmd p i hdec
  obtain ⟨hrow, hops, hpay⟩ := Encoding.decode_eq_command_iff.mp hdec
  have hwf := Encoding.wellFormed_of_holdsOperands hops
  exact ⟨hwf, Encoding.eq_of_holdsOperands ((Encoding.rowMatch_encodeWord i).trans hrow.symm)
    (Encoding.holdsOperands_encodeWord hwf) hops, hpay⟩

/-- Settles O3: what Decode asks besides mask and match is that the fields hold operands of some command
(`Encoding.exists_holdsOperands_iff`). -/
theorem wordIsCommandIffMatch : Obligations.WordIsCommandIffMatch := by
  intro cmd op
  rw [Encoding.tableMask_eq, Encoding.tableMatch_eq, ← Encoding.exists_holdsOperands_iff]
  constructor
  · rintro ⟨p, i, hdec, rfl⟩
    obtain ⟨hrow, hops, -⟩ := Encoding.decode_eq_command_iff.mp hdec
    exact ⟨hrow, i, rfl, hops⟩
  · rintro ⟨hrow, i, rfl, hops⟩
    exact ⟨encodePayload i, i, Encoding.decode_eq_command_iff.mpr ⟨hrow, hops, rfl⟩, rfl⟩

/-- Settles O8: the chunks join to the bytes, and the ABSORBs of the chunks run the one loop over the bytes. -/
theorem absorbLongExpands : Obligations.AbsorbLongExpands := by
  intro bytes
  have hjoin := Encoding.flatten_chunks_ceilDiv bytes
  refine ⟨Encoding.length_absorbLong bytes, fun i => Encoding.wellFormed_of_mem_absorbLong, ?_,
    fun k => Encoding.length_absorbLong_chunk, fun s hs => ?_⟩
  · rw [Encoding.absorbLong_eq, Encoding.flatMap_encodePayload_absorbs, hjoin]
  · obtain ⟨t, hrun, ht⟩ := Encoding.runAll_absorbs (Encoding.chunks _ bytes) s hs
    obtain ⟨u, hone, -, -, hu⟩ := Encoding.exec_absorb_absorbing bytes hs
    rw [hjoin, hu] at ht
    injection ht with hcursor
    injection hcursor with hS hoff
    exact ⟨t, u, by rw [Encoding.absorbLong_eq]; exact hrun, hone, hS.symm, hoff.symm⟩

/-- Settles O32: TBYTE reaches the tail positions by its low t bits only. -/
theorem finalizeIgnoresHighTailBits : Obligations.FinalizeIgnoresHighTailBits := by
  intro t v w s h
  simp only [exec, execFinalize, Encoding.padAndPermute_congr s h]

/-- Settles O6: eight evaluations of Decode. -/
theorem specWordsDecode : Obligations.SpecWordsDecode := by
  unfold Obligations.SpecWordsDecode
  decide
end

section
/-! PROOF. The statements of 40_permutation.md: the five step mappings by coordinate (R112 to R119), the fused traversal
of R117, the generating rules of R123, KeccakF and PERMUTE (R110, R125), and which commands change S (R111). -/

open Sys2Proof
open Sys2Proof.Machine
open Sys2Proof.Claims

namespace Sys2Proof.Permutation

/-! ## Coordinates (R23) -/

/-- `A[x,y]` depends on the coordinates mod 5 only (R11). -/
theorem laneXY_congr (A : Lanes) {x y x' y' : Nat} (hx : x % 5 = x' % 5) (hy : y % 5 = y' % 5) :
    laneXY A x y = laneXY A x' y' := by
  simp only [laneXY, hx, hy]

@[simp] theorem laneXY_mod_left (A : Lanes) (x y : Nat) : laneXY A (x % 5) y = laneXY A x y :=
  laneXY_congr A (Nat.mod_mod x 5) rfl

@[simp] theorem laneXY_mod_right (A : Lanes) (x y : Nat) : laneXY A x (y % 5) = laneXY A x y :=
  laneXY_congr A rfl (Nat.mod_mod y 5)

@[simp] theorem laneXY_mod_add_left (A : Lanes) (x n y : Nat) : laneXY A (x % 5 + n) y = laneXY A (x + n) y :=
  laneXY_congr A (Nat.mod_add_mod x 5 n) rfl

theorem laneXY_of_lt (A : Lanes) {x y : Nat} (hx : x < 5) (hy : y < 5) :
    laneXY A x y = A[x + 5 * y]'(by omega) := by
  simp only [laneXY, Nat.mod_eq_of_lt hx, Nat.mod_eq_of_lt hy]

/-- `laneXY_lanesBy` without bounds on the coordinates. -/
@[simp] theorem laneXY_lanesBy_mod (f : Nat → Nat → Lane) (x y : Nat) :
    laneXY (lanesBy f) x y = f (x % 5) (y % 5) := by
  rw [← laneXY_lanesBy f _ _ (Nat.mod_lt x (by decide)) (Nat.mod_lt y (by decide)), laneXY_mod_left, laneXY_mod_right]

/-! ## The step mappings by coordinate -/

@[simp] theorem getElem_parity (A : Lanes) (x : Nat) (h : x < 5) :
    (parity A)[x] = laneXY A x 0 ^^^ laneXY A x 1 ^^^ laneXY A x 2 ^^^ laneXY A x 3 ^^^ laneXY A x 4 := by
  simp only [parity, Vector.getElem_ofFn]

@[simp] theorem getElem_parityMix (C : Vector Lane 5) (x : Nat) (h : x < 5) :
    (parityMix C)[x] =
      C[(x + 4) % 5]'(Nat.mod_lt _ (by decide)) ^^^ rotl64 (C[(x + 1) % 5]'(Nat.mod_lt _ (by decide))) 1 := by
  simp only [parityMix, Vector.getElem_ofFn]

@[simp] theorem getElem_rho (A : Lanes) (k : Nat) (h : k < 25) : (rho A)[k] = rotl64 A[k] rhoOffsets[k] := by
  simp only [rho, Vector.getElem_ofFn, Fin.getElem_fin]

/-- RHO of the model is the list that R114 prints. -/
theorem rhoTable_getElem? (k : Fin 25) : rhoTable[k.val]?.getD 0 = rhoOffsets[k.val] := by
  revert k
  decide

theorem laneXY_rho (A : Lanes) {x y : Nat} (hx : x < 5) (hy : y < 5) :
    laneXY (rho A) x y = rotl64 (laneXY A x y) (rhoTable[x + 5 * y]?.getD 0) := by
  rw [laneXY_of_lt _ hx hy, laneXY_of_lt _ hx hy, getElem_rho, rhoTable_getElem? ⟨x + 5 * y, by omega⟩]

theorem laneXY_pi (A : Lanes) (x y : Nat) : laneXY (pi A) x y = laneXY A (x + 3 * y) x := by
  rw [pi, laneXY_lanesBy_mod]
  exact laneXY_congr A (by omega) (by omega)

theorem laneXY_iota (rc : Lane) (A : Lanes) {x y : Nat} (hx : x < 5) (hy : y < 5) :
    laneXY (iota rc A) x y = if x = 0 ∧ y = 0 then laneXY A 0 0 ^^^ rc else laneXY A x y := by
  by_cases h0 : x = 0 ∧ y = 0
  · obtain ⟨rfl, rfl⟩ := h0
    simp [laneXY, iota]
  · rw [if_neg h0, laneXY, iota, Vector.getElem_set_ne _ _ (by omega), laneXY]

/-! ## The fused traversal (R117) -/

/-- The traversal of R117 over any list of destinations and offsets. -/
def traverse (l : List (Nat × Nat)) (At : Lanes × Lane) : Lanes :=
  (l.foldl (fun At jn => fusedStep At jn.1 jn.2) At).1

/-- The destinations and offsets of R117. -/
def fusedMoves : List (Nat × Nat) := fusedDestinations.zip fusedOffsets

theorem fusedRhoPi_eq (A : Lanes) : fusedRhoPi A = traverse fusedMoves (A, A[1]?.getD 0) := rfl

theorem traverse_cons (j n : Nat) (l : List (Nat × Nat)) (B : Lanes) (t : Lane) :
    traverse ((j, n) :: l) (B, t) = traverse l (B.setIfInBounds j (rotl64 t n), B[j]?.getD 0) := rfl

/-- A traversal writes its destinations only. -/
theorem getElem?_traverse_of_not_mem {k : Nat} {l : List (Nat × Nat)} (hk : k ∉ l.map Prod.fst) (B : Lanes)
    (t : Lane) :
    (traverse l (B, t))[k]? = B[k]? := by
  induction l generalizing B t with
  | nil => rfl
  | cons jn rest ih =>
    obtain ⟨j, n⟩ := jn
    obtain ⟨hkj, hrest⟩ := not_or.mp (mt List.mem_cons.mpr hk)
    rw [traverse_cons, ih hrest, Vector.getElem?_setIfInBounds_ne (Ne.symm hkj)]

/-- Source, destination and offset of each step of a traversal that starts with lane i in hand: what a step carries is
the lane that the step before it found at its destination. -/
def carried (i : Nat) (l : List (Nat × Nat)) : List (Nat × Nat × Nat) := (i :: l.map Prod.fst).zip l

/-- The traversal of distinct destinations moves every lane as if at once. The array B of the moment still agrees with
the array A before the traversal at the destinations to come, so each step finds, and the next one carries, a lane
of A; and no later step writes the destination again. -/
theorem getElem?_traverse_of_mem_carried {A : Lanes} {src dest n : Nat} {l : List (Nat × Nat)}
    (hl : (l.map Prod.fst).Nodup) (hdest : dest < 25) {i : Nat} {B : Lanes}
    (hB : ∀ j ∈ l.map Prod.fst, B[j]? = A[j]?) (hm : (src, dest, n) ∈ carried i l) :
    (traverse l (B, A[i]?.getD 0))[dest]? = some (rotl64 (A[src]?.getD 0) n) := by
  induction l generalizing i B with
  | nil => exact absurd hm List.not_mem_nil
  | cons jn rest ih =>
    obtain ⟨j, n'⟩ := jn
    obtain ⟨hj, hrest⟩ := List.nodup_cons.mp hl
    rw [traverse_cons, hB j List.mem_cons_self]
    obtain hfirst | hlater := List.mem_cons.mp hm
    · cases hfirst
      rw [getElem?_traverse_of_not_mem hj, Vector.getElem?_setIfInBounds_self_of_lt hdest]
    · refine ih hrest (fun k hk => ?_) hlater
      have hjk : j ≠ k := fun h => hj (h ▸ hk)
      rw [Vector.getElem?_setIfInBounds_ne hjk, hB k (List.mem_cons_of_mem _ hk)]

/-- The position of the lane that π moves to position k (R116). -/
def piSource (k : Nat) : Nat := (k % 5 + 3 * (k / 5)) % 5 + 5 * (k % 5)

theorem piSource_lt (k : Nat) : piSource k < 25 := by
  unfold piSource
  omega

theorem getElem_pi (A : Lanes) (k : Nat) (h : k < 25) : (pi A)[k] = A[piSource k]'(piSource_lt k) := by
  simp only [pi, lanesBy, laneXY, piSource, Vector.getElem_ofFn, Nat.mod_mod]

theorem nodup_fusedMoves : (fusedMoves.map Prod.fst).Nodup := by decide

/-- PILN is the one cycle of π through the positions other than 0, and ROTC the offsets of R114 along it. -/
theorem carried_fusedMoves (k : Fin 25) (hk : k.val ≠ 0) :
    (piSource k, k.val, rhoOffsets[piSource k]'(piSource_lt k)) ∈ carried 1 fusedMoves := by
  revert k
  decide

@[simp] theorem rotl64_zero (a : Lane) : rotl64 a 0 = a := by
  simp [rotl64, BitVec.rotateLeft_def, BitVec.ushiftRight_eq_zero]

/-- Position 0 is on no step's way and its offset is 0; every other position is the destination of one step. -/
theorem fusedRhoPi_eq_pi_rho (A : Lanes) : fusedRhoPi A = pi (rho A) := by
  ext1 k hk
  apply Option.some.inj
  rw [← Vector.getElem?_eq_getElem, getElem_pi _ _ hk, getElem_rho, fusedRhoPi_eq]
  by_cases h0 : k = 0
  · subst h0
    rw [getElem?_traverse_of_not_mem (by decide)]
    simp [piSource, rhoOffsets]
  · rw [getElem?_traverse_of_mem_carried nodup_fusedMoves hk (fun j _ => rfl) (carried_fusedMoves ⟨k, hk⟩ h0)]
    simp [piSource_lt]

/-! ## The round constants (R121, R123) -/

theorem roundConstants_eq : roundConstants = (List.range 24).map roundConstantTable := rfl

theorem roundSpec_eq (A : Lanes) (ir : Nat) : roundSpec A ir = keccakRound A (roundConstantTable ir) := rfl

theorem keccakLanes_eq (A : Lanes) : keccakLanes A = (List.range 24).foldl roundSpec A := by
  rw [keccakLanes, roundConstants_eq, List.foldl_map]
  rfl

end Sys2Proof.Permutation

/-- Settles O11: one lemma per mapping; θ and χ are read off `laneXY_lanesBy_mod`. -/
theorem stepMappingsByCoordinate : Obligations.StepMappingsByCoordinate := by
  intro A x y hx hy C
  refine ⟨?_, Permutation.laneXY_rho A hx hy, Permutation.laneXY_pi A x y, ?_,
    fun rc => Permutation.laneXY_iota rc A hx hy⟩
  · simp [theta, C]
  · simp [chi]

/-- Settles O13: π reads position (y, 2x + 3y) from column y + 3(2x + 3y), which is x mod 5. -/
theorem piMovesLanes : Obligations.PiMovesLanes := by
  intro A x y _ _
  rw [Permutation.laneXY_pi, Permutation.laneXY_pi]
  exact ⟨Permutation.laneXY_congr A (by omega) rfl, rfl⟩

/-- Settles O14, by `Permutation.fusedRhoPi_eq_pi_rho` and the 25 entries of ROT_DEST. -/
theorem fusedTraversalIsPiOfRho : Obligations.FusedTraversalIsPiOfRho :=
  ⟨Permutation.fusedRhoPi_eq_pi_rho, by decide⟩

/-- Settles O48: CFG_* and SET_OUTLEN keep S whether they complete or fail closed. -/
theorem stateArrayChangesOnlyBy : Obligations.StateArrayChangesOnlyBy := by
  intro i s t hx hne
  cases i with
  | cfgVariant v =>
    exact absurd (by rw [exec_cfgVariant_next hx, complete_sponge, loadParams_sponge]) hne
  | cfgExplicit cap d h =>
    obtain ⟨-, -, rfl⟩ | ⟨-, rfl⟩ := exec_cfgExplicit_next hx <;> exact absurd rfl hne
  | setOutlen b =>
    obtain ⟨-, -, -, rfl⟩ | ⟨-, rfl⟩ | ⟨-, -, rfl⟩ | ⟨-, -, -, rfl⟩ := exec_setOutlen_next hx <;> exact absurd rfl hne
  | init => exact .inl rfl
  | absorb p => exact .inr (.inl rfl)
  | finalize tb v => exact .inr (.inr (.inl rfl))
  | squeeze n => exact .inr (.inr (.inr (.inl rfl)))
  | permute => exact .inr (.inr (.inr (.inr rfl)))

/-- Settles O15: the generators and the tables are closed, and each clause is their evaluation. -/
theorem tablesFollowTheirGenerators : Obligations.TablesFollowTheirGenerators :=
  ⟨by decide, rfl, by decide, by decide +kernel⟩

/-- Settles O16: the table of the model is that of R121, and `exec_permute` is the rest. -/
theorem permuteResult : Obligations.PermuteResult :=
  ⟨fun S => (lanesOf_keccakF S).trans (Permutation.keccakLanes_eq _), exec_permute⟩
end

section
/-! PROOF. The statements of 41_configuration.md: what CFG_VARIANT, CFG_EXPLICIT and SET_OUTLEN load (R140 to R147), and
which commands change the output length (R148). -/

open Sys2Proof
open Sys2Proof.Machine
open Sys2Proof.Claims

namespace Sys2Proof.Configuration

/-! ## The parameter set of a domain (R142) -/

/-- The domain registers that a CFG_* command loads, as the two rows of R142. -/
theorem complete_loadParams (cap : BitVec 11) (h : BitVec 20) (d : Domain) (code : BitVec 4) (s : State) :
    complete 0 [] (loadParams cap h d code s) =
      { s with
        capacity := cap
        rateBits := BitVec.ofNat 11 (1600 - cap.toNat)
        rateBytes := BitVec.ofNat 8 ((1600 - cap.toNat) / 8)
        hashSize := h
        dom := if d = .shake then 1 else 0
        suffix := if d = .shake then 0b1111 else 0b0010
        suffixLen := if d = .shake then 4 else 2
        xof := if d = .shake then 1 else 0
        variant := code
        phase := .configured
        result := 0
        lastErr := 0
        out := [] } := by
  cases d <;> rfl

/-! ## The variant table (R140) -/

theorem variantCapacity_eq (v : Variant) : variantCapacity v = BitVec.ofNat 11 (variantRow v).capacity := by
  cases v <;> rfl

theorem variantHashSize_eq (v : Variant) : variantHashSize v = BitVec.ofNat 20 (variantRow v).hashSize := by
  cases v <;> rfl

theorem variantCode_eq (v : Variant) : v.code = BitVec.ofNat 4 (variantRow v).code := by
  cases v <;> rfl

theorem variantDomain_eq_shake_iff (v : Variant) : variantDomain v = .shake ↔ (variantRow v).shake = true := by
  cases v <;> decide

/-- The rate columns of the table are what the capacity leaves of the state array, in bits and in bytes (R31). -/
theorem variantRow_rate (v : Variant) :
    1600 - (variantCapacity v).toNat = (variantRow v).rateBits ∧
      (variantRow v).rateBits / 8 = (variantRow v).rateBytes := by
  cases v <;> decide

/-! ## Accepted operands -/

/-- CFG_EXPLICIT completes in every phase on an accepted capacity and length (R144). -/
theorem exec_cfgExplicit_of_accepted {cap : BitVec 11} {h : BitVec 20} (hcap : capacityAccepted cap = true)
    (hlen : outputLengthAccepted h = true) (d : Domain) (s : State) :
    exec (.cfgExplicit cap d h) s = .next (complete 0 [] (loadParams cap h d explicitVariant s)) := by
  simp [exec, execCfgExplicit, hcap, hlen]

/-- SET_OUTLEN completes where its three checks pass (R147). -/
theorem exec_setOutlen_of_accepted {b : BitVec 20} {s : State} (hphase : setOutlenPhase s.phase = true)
    (hxof : s.xof ≠ 0) (hlen : outputLengthAccepted b = true) :
    exec (.setOutlen b) s = .next (complete 1 [] { s with hashSize := b }) := by
  simp only [exec, execSetOutlen, hphase, hlen, if_neg hxof, Bool.true_eq_false, if_false]

end Sys2Proof.Configuration

/-- Settles O20: SET_OUTLEN completes only with XOF ≠ 0, and a failure keeps HASH_SIZE, as the other commands do. -/
theorem outputLengthChangesOnlyBy : Obligations.OutputLengthChangesOnlyBy := by
  intro i s t hx hne
  cases i with
  | cfgVariant v => exact .inl rfl
  | cfgExplicit cap d h => exact .inr (.inl rfl)
  | setOutlen b =>
    obtain ⟨-, hxof, -, -⟩ | ⟨-, rfl⟩ | ⟨-, -, rfl⟩ | ⟨-, -, -, rfl⟩ := exec_setOutlen_next hx
    · exact .inr (.inr ⟨rfl, hxof⟩)
    all_goals exact absurd (failClosed_hashSize _ s) hne
  | init => obtain ⟨-, rfl⟩ | ⟨-, rfl⟩ := exec_init_next hx <;> exact absurd rfl hne
  | absorb p => obtain ⟨-, c, -, rfl⟩ | ⟨-, rfl⟩ := exec_absorb_next hx <;> exact absurd rfl hne
  | finalize tb v => obtain ⟨-, S, o, c, -, -, rfl⟩ | ⟨-, rfl⟩ := exec_finalize_next hx <;> exact absurd rfl hne
  | squeeze n => obtain ⟨-, o, c, -, rfl⟩ | ⟨-, rfl⟩ := exec_squeeze_next hx <;> exact absurd rfl hne
  | permute => exact absurd (by rw [exec_permute_next hx, complete_hashSize]) hne

/-- Settles O17: CFG_VARIANT loads the set of its variant, whose columns are those of R140. -/
theorem cfgVariantLoadsItsRow : Obligations.CfgVariantLoadsItsRow := by
  intro v s
  obtain ⟨hbits, hbytes⟩ := Configuration.variantRow_rate v
  rw [exec_cfgVariant, Configuration.complete_loadParams, hbits, hbytes]
  simp only [Configuration.variantCapacity_eq, Configuration.variantHashSize_eq, Configuration.variantCode_eq,
    Configuration.variantDomain_eq_shake_iff]

/-- Settles O18: the premises are the two checks of CFG_EXPLICIT, and the next state is the set it loads. -/
theorem cfgExplicitLoads : Obligations.CfgExplicitLoads := by
  intro cap d h s hlt hmod hpos hmax
  rw [Configuration.exec_cfgExplicit_of_accepted (capacityAccepted_iff.mpr ⟨hlt, hmod⟩)
    (outputLengthAccepted_iff.mpr ⟨hpos, hmax⟩), Configuration.complete_loadParams, explicitVariant]

/-- Settles O19: the premises are the three checks of SET_OUTLEN. -/
theorem setOutlenWritesLength : Obligations.SetOutlenWritesLength := by
  intro b s hphase hxof hpos hmax
  have hne : s.xof ≠ 0 := by simp [hxof]
  exact Configuration.exec_setOutlen_of_accepted (setOutlenPhase_iff.mpr hphase) hne
    (outputLengthAccepted_iff.mpr ⟨hpos, hmax⟩)
end

section
/-! PROOF. The session of 42_absorb.md: INIT (R170), the phase table (R172), ABSORB as a fold of AbsorbByte (R174, R176)
and the lane-wise fast path (R177, R178). -/

open Sys2Proof
open Sys2Proof.Machine
open Sys2Proof.Claims

namespace Sys2Proof.Absorb

/-! ## INIT (R170) -/

theorem exec_init_of_ne {s : State} (hp : s.phase ≠ .unconfigured) :
    exec .init s =
      .next (complete 0 [] { s with sponge := Sponge.zero, absOff := 0, sqzPos := 0, phase := .absorbing }) := by
  simp only [exec, execInit, if_neg hp]

/-! ## Which transactions decode (R90) -/

/-- A field that the row's mask covers reads as in the row's match. -/
theorem field_of_row {cmd mask row : Word} {hi lo : Nat} (h : cmd &&& mask = row)
    (hmask : field mask hi lo = BitVec.allOnes _) : field cmd hi lo = field row hi lo := by
  have hand : field (cmd &&& mask) hi lo = field cmd hi lo &&& field mask hi lo := by
    simp [field, BitVec.extractLsb, BitVec.extractLsb'_and]
  rw [← h, hand, hmask, BitVec.and_allOnes]

/-- The opcode of a word that matches a row is the row's. -/
theorem opcode_of_row {cmd : Word} {op : Opcode} (h : cmd &&& op.mask = op.code.setWidth 64) :
    field cmd 7 0 = op.code := by
  obtain ⟨hopc, -⟩ := Encoding.rowMatch_iff.mp h
  exact Encoding.opcodeOf_eq_some_iff.mp hopc

/-- The mask of a row covers the reserved fields of its format (R82 to R88), and its match has no bit in them. -/
theorem not_reservedBitSet_of_row {cmd : Word} {op : Opcode} (h : cmd &&& op.mask = op.code.setWidth 64) :
    ¬reservedBitSet cmd op.code.toNat := by
  have hfield {hi lo : Nat} (hmask : field op.mask hi lo = BitVec.allOnes _)
      (hmatch : field (op.code.setWidth 64) hi lo = 0) : field cmd hi lo = 0 := (field_of_row h hmask).trans hmatch
  cases op with
  | cfgExplicit =>
    exact not_or.mpr ⟨not_not.mpr (hfield (by decide) (by decide)),
      not_or.mpr ⟨not_not.mpr (hfield (by decide) (by decide)), not_not.mpr (hfield (by decide) (by decide))⟩⟩
  | finalize =>
    exact not_or.mpr ⟨not_not.mpr (hfield (by decide) (by decide)), not_not.mpr (hfield (by decide) (by decide))⟩
  | _ => exact not_not.mpr (hfield (by decide) (by decide))

/-- Opcodes are 1 to 8, and 1, 2 and 5 are those of CFG_VARIANT, CFG_EXPLICIT and ABSORB (R81). -/
theorem opcode_code_range (op : Opcode) :
    op.code.toNat ≠ 0 ∧ op.code.toNat < 9 ∧ (op.code.toNat = 1 → op = .cfgVariant) ∧
      (op.code.toNat = 2 → op = .cfgExplicit) ∧ (op.code.toNat = 5 ↔ op = .absorb) := by
  cases op <;> decide

/-- A word that decodes to a command is none of the cases of R221. -/
theorem not_illegalWord_of_decode {cmd : Word} {p : List Byte} {i : Instr} (h : decode cmd p = .command i) :
    ¬illegalWord cmd := by
  obtain ⟨hrow, hops, -⟩ := Encoding.decode_eq_command_iff.mp h
  obtain ⟨hvariant, hdom⟩ := Encoding.exists_holdsOperands_iff.mp ⟨i, rfl, hops⟩
  obtain ⟨hzero, hlt, hone, htwo, -⟩ := opcode_code_range i.opcode
  rw [illegalWord, opcode_of_row hrow]
  rintro (h0 | h9 | hres | ⟨h1, hv⟩ | ⟨h2, hd⟩)
  · exact hzero h0
  · omega
  · exact not_reservedBitSet_of_row hrow hres
  · have := hvariant (hone h1)
    omega
  · have := hdom (htwo h2)
    omega

/-- A transaction that decodes to a command is none of the cases of R226. -/
theorem not_wrongLength_of_decode {cmd : Word} {p : List Byte} {i : Instr} (h : decode cmd p = .command i) :
    ¬wrongLength cmd p := by
  obtain ⟨hrow, hops, rfl⟩ := Encoding.decode_eq_command_iff.mp h
  obtain ⟨-, -, -, -, hfive⟩ := opcode_code_range i.opcode
  rw [wrongLength, opcode_of_row hrow, hfive]
  cases i with
  | absorb payload =>
    have hlen : (field cmd 23 8).toNat = payload.length := hops
    simp [Instr.opcode, Opcode.code, encodePayload, hlen]
  | _ => simp [Instr.opcode, encodePayload]

/-- A transaction that decodes to no command fails closed. -/
theorem runCommand_of_bad {cmd : Word} {p : List Byte} (s : State) (h : illegalWord cmd ∨ wrongLength cmd p) :
    ∃ e, runCommand cmd p s = .next (failClosed e s) := by
  cases hdec : decode cmd p with
  | illegal => exact ⟨_, runCommand_illegal s hdec⟩
  | length => exact ⟨_, runCommand_length s hdec⟩
  | command i =>
    exact absurd h (not_or.mpr ⟨not_illegalWord_of_decode hdec, not_wrongLength_of_decode hdec⟩)

/-! ## The phase table (R172) -/

theorem lastErr_failClosed_ne_zero (e : ErrCode) (s : State) : (failClosed e s).lastErr ≠ 0 := by
  rw [failClosed_lastErr]
  cases e <;> decide

/-- The MISUSE cells of SET_OUTLEN are the phases in which it is not legal. -/
theorem misuse_setOutlen_iff {b : BitVec 20} {p : Phase} : misuse (.setOutlen b) p ↔ setOutlenPhase p = false := by
  cases p <;> simp [misuse, setOutlenPhase]

/-- The row of the table for each command: its MISUSE cells fail closed, and success leaves the phase it gives. -/
theorem exec_next_phase {i : Instr} {s t : State} (hx : exec i s = .next t) :
    (misuse i s.phase → t = afterFailure 4 s) ∧ (t.lastErr = 0 → t.phase = phaseAfter s i) := by
  have hfails {e : ErrCode} {q : Phase} : (failClosed e s).lastErr = 0 → (failClosed e s).phase = q :=
    fun h => absurd h (lastErr_failClosed_ne_zero e s)
  cases i with
  | cfgVariant v => exact ⟨False.elim, fun _ => by rw [exec_cfgVariant_next hx]; rfl⟩
  | cfgExplicit cap d h =>
    obtain ⟨-, -, rfl⟩ | ⟨-, rfl⟩ := exec_cfgExplicit_next hx
    · exact ⟨False.elim, fun _ => rfl⟩
    · exact ⟨False.elim, hfails⟩
  | setOutlen b =>
    rw [misuse_setOutlen_iff]
    obtain ⟨hp, -, -, rfl⟩ | ⟨-, rfl⟩ | ⟨hp, -, rfl⟩ | ⟨hp, -, -, rfl⟩ := exec_setOutlen_next hx
    · exact ⟨by simp [hp], fun _ => rfl⟩
    · exact ⟨fun _ => rfl, hfails⟩
    all_goals exact ⟨by simp [hp], hfails⟩
  | init =>
    obtain ⟨hp, rfl⟩ | ⟨-, rfl⟩ := exec_init_next hx
    · exact ⟨fun h => absurd h hp, fun _ => rfl⟩
    · exact ⟨fun _ => rfl, hfails⟩
  | absorb p =>
    obtain ⟨hp, c, -, rfl⟩ | ⟨-, rfl⟩ := exec_absorb_next hx
    · exact ⟨fun h => absurd hp h, fun _ => rfl⟩
    · exact ⟨fun _ => rfl, hfails⟩
  | finalize tb v =>
    obtain ⟨hp, S, o, c, -, -, rfl⟩ | ⟨-, rfl⟩ := exec_finalize_next hx
    · exact ⟨fun h => absurd hp h, fun _ => rfl⟩
    · exact ⟨fun _ => rfl, hfails⟩
  | squeeze n =>
    obtain ⟨hp, o, c, -, rfl⟩ | ⟨-, rfl⟩ := exec_squeeze_next hx
    · exact ⟨fun h => absurd hp h, fun _ => rfl⟩
    · exact ⟨fun _ => rfl, hfails⟩
  | permute => exact ⟨False.elim, fun _ => by rw [exec_permute_next hx]; rfl⟩

/-! ## ABSORB as a fold (R174) -/

/-- A byte XORed into the state, byte by byte. -/
theorem ofFn_xor_eq_set (S : Sponge) {i : Nat} (h : i < 200) (b : Byte) :
    (Vector.ofFn fun k => if k.val = i then S[k] ^^^ b else S[k] : Sponge) = S.set i (S[i] ^^^ b) := by
  ext1 j hj
  rw [Vector.getElem_ofFn, Vector.getElem_set]
  by_cases hij : i = j
  · subst hij; simp
  · simp [hij, Ne.symm hij]

/-- AbsorbByte inside the block is the step of R174 on the offset as a number. -/
theorem absorbByte_eq_absorbSpec {rb : BitVec 8} {c : Cursor} (b : Byte) (hr : rb.toNat ≤ 200)
    (hc : c.pos.toNat < rb.toNat) :
    ∃ c', absorbByte rb c b = .ok c' ∧ c'.pos.toNat < rb.toNat ∧
      absorbSpec rb.toNat (c.sponge, c.pos.toNat) b = (c'.sponge, c'.pos.toNat) := by
  obtain ⟨c', hc', hlt, -⟩ := absorbByte_ok (b := b) hc hr
  refine ⟨c', hc', hlt, ?_⟩
  have h200 : c.pos.toNat < 200 := by omega
  have hfull : c.pos + 1 = rb ↔ c.pos.toNat + 1 = rb.toNat := by
    rw [← toNat_add_one_of_lt hc, BitVec.toNat_inj]
  rw [absorbByte_of_lt h200] at hc'
  cases hc'
  simp only [absorbSpec, ofFn_xor_eq_set _ h200, hfull]
  split_ifs with h
  · rfl
  · simp only [toNat_add_one_of_lt hc]

/-- The loop of R173 inside the block is the left fold of the step of R174. -/
theorem absorbBytes_eq_foldl {rb : BitVec 8} (hr : rb.toNat ≤ 200) (p : List Byte) :
    ∀ c : Cursor, c.pos.toNat < rb.toNat →
      ∃ c', absorbBytes rb p c = .ok c' ∧
        p.foldl (absorbSpec rb.toNat) (c.sponge, c.pos.toNat) = (c'.sponge, c'.pos.toNat) := by
  induction p with
  | nil => exact fun c _ => ⟨c, rfl, rfl⟩
  | cons b rest ih =>
    intro c hc
    obtain ⟨c1, h1, hlt, hspec⟩ := absorbByte_eq_absorbSpec b hr hc
    obtain ⟨c2, h2, hfold⟩ := ih c1 hlt
    exact ⟨c2, by rw [absorbBytes, h1]; exact h2, by rw [List.foldl_cons, hspec, hfold]⟩

/-! ## lane_xor_inject (R177) -/

/-- LaneXor changes the eight bytes of its lane, each by XOR with its byte of the word. -/
theorem getElem_laneXor (S : Sponge) (k : Fin 25) (w : Lane) {i : Nat} (h : i < 200) :
    (laneXor S k w)[i] = if i / 8 = k.val then S[i] ^^^ laneByte w (i % 8) else S[i] := by
  rw [laneXor, ArchState.getElem_setLane _ _ _ h]
  by_cases hk : i / 8 = k.val
  · have hbyte : laneByte (lane S k) (i % 8) = S[i] := by
      rw [laneByte_lane _ _ _ (Nat.mod_lt _ (by decide))]
      simp only [← hk, Nat.div_add_mod]
    rw [if_pos hk, if_pos hk, ← hbyte]
    simp only [laneByte, BitVec.extractLsb'_xor]
  · rw [if_neg hk, if_neg hk]

/-- Byte j of an input word is input byte 8k + j. -/
theorem laneByte_inputLane (p : List Byte) (k : Nat) {j : Nat} (h : j < 8) :
    laneByte (inputLane p k) j = p[8 * k + j]?.getD 0 := by
  rw [inputLane, laneByte_append _ _ _ _ _ _ _ _ _ h]
  interval_cases j <;> rfl

/-! ## The fast path (R178) -/

/-- The first n bytes of p XORed into the front of the state: as far as the loops of R178 and of R173 have come. -/
def xorFront (S : Sponge) (p : List Byte) (n : Nat) : Sponge :=
  Vector.ofFn fun i => if i.val < n then S[i] ^^^ p[i.val]?.getD 0 else S[i]

theorem getElem_xorFront (S : Sponge) (p : List Byte) (n : Nat) {i : Nat} (h : i < 200) :
    (xorFront S p n)[i] = if i < n then S[i] ^^^ p[i]?.getD 0 else S[i] := by
  simp [xorFront]

theorem xorFront_zero (S : Sponge) (p : List Byte) : xorFront S p 0 = S := by
  ext1 i h
  simp [getElem_xorFront]

/-- One turn of the byte loop of R178. -/
theorem xorByte_xorFront (S : Sponge) (p : List Byte) {n : Nat} (h : n < 200) :
    xorByte (xorFront S p n) n (p[n]?.getD 0) = .ok (xorFront S p (n + 1)) := by
  rw [xorByte_of_lt h]
  refine congrArg Except.ok (Vector.ext fun i hi => ?_)
  rw [Vector.getElem_set, getElem_xorFront _ _ _ h, getElem_xorFront _ _ _ hi, getElem_xorFront _ _ _ hi]
  by_cases hni : n = i
  · subst hni; simp
  · have hlt : i < n + 1 ↔ i < n := by omega
    simp only [if_neg hni, hlt]

/-- One turn of the lane loop of R178. -/
theorem laneXor_xorFront (S : Sponge) (p : List Byte) (k : Fin 25) :
    laneXor (xorFront S p (8 * k.val)) k (inputLane p k.val) = xorFront S p (8 * (k.val + 1)) := by
  ext1 i hi
  rw [getElem_laneXor _ _ _ hi, laneByte_inputLane _ _ (Nat.mod_lt _ (by decide)), getElem_xorFront _ _ _ hi,
    getElem_xorFront _ _ _ hi]
  by_cases hk : i / 8 = k.val
  · rw [if_pos hk, if_neg (by omega), if_pos (by omega), ← hk, Nat.div_add_mod]
  · have hlt : i < 8 * (k.val + 1) ↔ i < 8 * k.val := by omega
    simp only [if_neg hk, hlt]

/-- The lane loop injects the whole lanes of the block. -/
theorem foldl_laneXor (S : Sponge) (p : List Byte) {n : Nat} (h : n ≤ 25) :
    (List.range n).foldl (fun S k => if h : k < 25 then laneXor S ⟨k, h⟩ (inputLane p k) else S) S =
      xorFront S p (8 * n) := by
  induction n with
  | zero => exact (xorFront_zero S p).symm
  | succ n ih =>
    rw [List.range_succ, List.foldl_append, ih (by omega), List.foldl_cons, List.foldl_nil,
      dif_pos (show n < 25 by omega)]
    exact laneXor_xorFront S p ⟨n, by omega⟩

/-- The byte loop injects m bytes from byte n on. -/
theorem foldlM_xorByte (S : Sponge) (p : List Byte) (n m : Nat) (h : n + m ≤ 200) :
    (List.range' n m).foldlM (fun S i => xorByte S i (p[i]?.getD 0)) (xorFront S p n) =
      .ok (xorFront S p (n + m)) := by
  induction m generalizing n with
  | zero => rfl
  | succ m ih =>
    rw [List.range'_succ, List.foldlM_cons, xorByte_xorFront S p (by omega), show n + (m + 1) = n + 1 + m by omega]
    exact ih (n + 1) (by omega)

theorem absorbBlockByLanes_eq {rb : BitVec 8} (hr : rb.toNat ≤ 200) (p : List Byte) (S : Sponge) :
    absorbBlockByLanes rb p S = .ok ⟨keccakF (xorFront S p rb.toNat), 0⟩ := by
  rw [absorbBlockByLanes, injectLanes, foldl_laneXor S p (by omega), injectRest,
    foldlM_xorByte S p _ _ (by omega), Nat.div_add_mod]

/-- One turn of the loop of R173 in a block that has been filled from offset 0 up to n. -/
theorem absorbByte_xorFront {rb : BitVec 8} {p : List Byte} {n : Nat} (S : Sponge) (hn : n < rb.toNat)
    (hr : rb.toNat ≤ 200) :
    absorbByte rb ⟨xorFront S p n, BitVec.ofNat 8 n⟩ (p[n]?.getD 0) =
      .ok (if n + 1 = rb.toNat then ⟨keccakF (xorFront S p rb.toNat), 0⟩
        else ⟨xorFront S p (n + 1), BitVec.ofNat 8 (n + 1)⟩) := by
  have hpos : (BitVec.ofNat 8 n).toNat = n := Nat.mod_eq_of_lt (by omega)
  have hfull : BitVec.ofNat 8 n + 1 = rb ↔ n + 1 = rb.toNat := by
    rw [← BitVec.toNat_inj, toNat_add_one_of_lt (hpos.symm ▸ hn), hpos]
  simp only [absorbByte, hpos, xorByte_xorFront S p (show n < 200 by omega), hfull]
  split_ifs with h
  · rw [h]
  · rw [BitVec.ofNat_add]
    rfl

theorem drop_eq_getD_cons {p : List Byte} {n : Nat} (h : n < p.length) :
    p.drop n = p[n]?.getD 0 :: p.drop (n + 1) := by
  rw [List.drop_eq_getElem_cons h, List.getElem?_eq_getElem h, Option.getD_some]

/-- RATE_BYTES AbsorbByte steps at offset 0, seen from offset n on: the block fills at its last byte, and only there. -/
theorem absorbBytes_drop {rb : BitVec 8} {p : List Byte} (S : Sponge) (hr : rb.toNat ≤ 200)
    (hlen : p.length = rb.toNat) (m n : Nat) (hn : n + (m + 1) = rb.toNat) :
    absorbBytes rb (p.drop n) ⟨xorFront S p n, BitVec.ofNat 8 n⟩ = .ok ⟨keccakF (xorFront S p rb.toNat), 0⟩ := by
  induction m generalizing n with
  | zero =>
    rw [drop_eq_getD_cons (by omega), absorbBytes, absorbByte_xorFront S (by omega) hr, if_pos hn,
      List.drop_of_length_le (by omega)]
    rfl
  | succ m ih =>
    have hopen : n + 1 ≠ rb.toNat := by omega
    rw [drop_eq_getD_cons (by omega), absorbBytes, absorbByte_xorFront S (by omega) hr, if_neg hopen]
    exact ih (n + 1) (by omega)

/-- RATE_BYTES AbsorbByte steps from offset 0. -/
theorem absorbBytes_block {rb : BitVec 8} (hpos : 0 < rb.toNat) (hr : rb.toNat ≤ 200) {p : List Byte}
    (hlen : p.length = rb.toNat) (S : Sponge) :
    absorbBytes rb p ⟨S, 0⟩ = .ok ⟨keccakF (xorFront S p rb.toNat), 0⟩ := by
  have h := absorbBytes_drop S hr hlen (rb.toNat - 1) 0 (by omega)
  rwa [xorFront_zero, List.drop_zero] at h

end Sys2Proof.Absorb

/-- Settles O22, by `Absorb.exec_init_of_ne`. -/
theorem initStartsSession : Obligations.InitStartsSession :=
  fun _ hp => Absorb.exec_init_of_ne hp

/-- Settles O23: the state after INIT is made of constants and of the fields on which the two states agree. -/
theorem initForgetsOldSession : Obligations.InitForgetsOldSession := by
  intro s t hs ht hcap hrate hbytes hhash hdom hsuffix hlen hvariant hxof hseen hin hout
  refine ⟨_, Absorb.exec_init_of_ne hs, ?_, Absorb.exec_init_of_ne nofun⟩
  rw [Absorb.exec_init_of_ne ht]
  simp only [complete, hcap, hrate, hbytes, hhash, hdom, hsuffix, hlen, hvariant, hxof, hseen, hin, hout]

/-- Settles O24, by `Absorb.absorbBytes_eq_foldl` from the cursor (S, ABS_OFF). -/
theorem absorbIsFoldOfAbsorbByte : Obligations.AbsorbIsFoldOfAbsorbByte := by
  rintro p s ⟨hp, ⟨hrate, -⟩, hin⟩
  obtain ⟨c, hc, hfold⟩ :=
    Absorb.absorbBytes_eq_foldl (ArchState.rateBytes_le_of_rateLegal hrate) p ⟨s.sponge, s.absOff⟩ hin
  rw [ArchState.exec_absorb_of_ok hp hc, hfold]
  simp only [BitVec.ofNat_toNat, BitVec.setWidth_eq]
  rfl

/-- Settles O26: the loop over a ++ b is the loop over a and then over b (`absorbBytes_append`). -/
theorem absorbConcatenates : Obligations.AbsorbConcatenates := by
  intro a b s hs
  obtain ⟨s1, hx1, hs1, hrate, ha⟩ := Encoding.exec_absorb_absorbing a hs
  obtain ⟨s2, hx2, -, -, hb⟩ := Encoding.exec_absorb_absorbing b hs1
  obtain ⟨s3, hx3, -, -, hab⟩ := Encoding.exec_absorb_absorbing (a ++ b) hs
  rw [absorbBytes_append, ha, ← hrate] at hab
  have hcursor : (⟨s2.sponge, s2.absOff⟩ : Cursor) = ⟨s3.sponge, s3.absOff⟩ := Except.ok.inj (hb.symm.trans hab)
  injection hcursor with hS hoff
  exact ⟨s1, s2, s3, hx1, hx2, hx3, hS.symm, hoff.symm⟩

/-- Settles O47: `Absorb.exec_next_phase` for a command; a failed transaction fails closed, and a transaction that
decodes to no command fails. -/
theorem phaseTable : Obligations.PhaseTable := by
  refine ⟨fun i s t hx => Absorb.exec_next_phase hx, fun cmd p s t hr => ⟨fun hne => ?_, fun hbad => ?_⟩⟩
  · obtain ⟨hlast, -, -⟩ | ⟨e, rfl⟩ := ArchState.runCommand_next_completes_or_fails hr
    · exact absurd hlast hne
    · exact failClosed_phase e s
  · obtain ⟨e, he⟩ := Absorb.runCommand_of_bad s hbad
    rw [hr] at he
    cases he
    exact Absorb.lastErr_failClosed_ne_zero e s

/-- Settles O10, by `Absorb.getElem_laneXor` and `Absorb.laneByte_inputLane`. -/
theorem laneXorIsEightByteXors : Obligations.LaneXorIsEightByteXors :=
  fun S k => ⟨fun w _ h => Absorb.getElem_laneXor S k w h, fun p _ h => Absorb.laneByte_inputLane p k.val h⟩

/-- Settles O27: both forms XOR the block into the front of the state and permute once. -/
theorem laneFastPathEqualsByteSteps : Obligations.LaneFastPathEqualsByteSteps :=
  fun _ p S hpos hr hlen => ⟨_, Absorb.absorbBlockByLanes_eq hr p S, Absorb.absorbBytes_block hpos hr hlen S⟩
end

section
/-! PROOF. The padding of 42_absorb.md: the bits of the state (R13), the tail (R185 to R188) and the padded message
(R184). -/

open Sys2Proof
open Sys2Proof.Machine
open Sys2Proof.Claims

namespace Sys2Proof.Padding

/-! ## The bits of the state (R13) -/

theorem getLsbD_one_shiftLeft (n : Nat) {j : Nat} (h : j < 8) : (1#8 <<< n).getLsbD j = decide (j = n) := by
  rw [BitVec.getLsbD_shiftLeft, BitVec.getLsbD_one]
  by_cases hjn : j < n <;> simp [h, hjn] <;> omega

/-- Folding the first n bits into a zero byte gives those bits and no other. -/
theorem getLsbD_foldl_bits (f : Nat → Bool) (n : Nat) {j : Nat} (h : j < 8) :
    ((List.range n).foldl (fun acc j => if f j then acc ||| 1#8 <<< j else acc) 0).getLsbD j =
      (decide (j < n) && f j) := by
  have hturn (acc : Byte) (n : Nat) :
      (if f n then acc ||| 1#8 <<< n else acc).getLsbD j = (acc.getLsbD j || (decide (j = n) && f n)) := by
    cases hf : f n <;> simp [getLsbD_one_shiftLeft n h]
  induction n with
  | zero => simp
  | succ n ih =>
    rw [List.range_succ, List.foldl_append, List.foldl_cons, List.foldl_nil, hturn, ih]
    by_cases hjn : j = n
    · subst hjn
      simp
    · have hlt : j < n + 1 ↔ j < n := by omega
      simp [hjn, hlt]

theorem getLsbD_byteOfBits (f : Nat → Bool) {j : Nat} (h : j < 8) : (byteOfBits f).getLsbD j = f j := by
  rw [byteOfBits, getLsbD_foldl_bits f 8 h, decide_eq_true h, Bool.true_and]

theorem byteOfBits_congr {f g : Nat → Bool} (h : ∀ j < 8, f j = g j) : byteOfBits f = byteOfBits g := by
  apply BitVec.eq_of_getLsbD_eq
  intro j hj
  rw [getLsbD_byteOfBits f hj, getLsbD_byteOfBits g hj, h j hj]

/-- The bits f XORed into the state, bit q of the state receiving `f q`. -/
def xorMask (S : Sponge) (f : Nat → Bool) : Sponge :=
  Vector.ofFn fun i => S[i] ^^^ byteOfBits fun j => f (8 * i.val + j)

theorem getElem_xorMask (S : Sponge) (f : Nat → Bool) {i : Nat} (h : i < 200) :
    (xorMask S f)[i] = S[i] ^^^ byteOfBits fun j => f (8 * i + j) := by
  simp [xorMask]

theorem xorBlock_eq (S : Sponge) (block : List Bool) : xorBlock S block = xorMask S fun q => block[q]?.getD false := rfl

theorem padBlockSpec_eq (r k : Nat) (bit : Nat → Bool) (S : Sponge) :
    padBlockSpec r k bit S = keccakF (xorMask S fun q => decide (q < r) && bit (k * r + q)) := rfl

theorem xorMask_congr (S : Sponge) {f g : Nat → Bool} (h : ∀ q < 1600, f q = g q) : xorMask S f = xorMask S g := by
  ext1 i hi
  rw [getElem_xorMask S f hi, getElem_xorMask S g hi, byteOfBits_congr fun j hj => h _ (by omega)]

theorem xorMask_false (S : Sponge) : xorMask S (fun _ => false) = S := by
  ext1 i hi
  rw [getElem_xorMask S _ hi]
  exact BitVec.xor_zero

/-- XORing bits twice is XORing their XOR once. -/
theorem xorMask_xorMask (S : Sponge) (f g : Nat → Bool) :
    xorMask (xorMask S f) g = xorMask S fun q => f q ^^ g q := by
  ext1 i hi
  rw [getElem_xorMask _ _ hi, getElem_xorMask _ _ hi, getElem_xorMask _ _ hi, BitVec.xor_assoc]
  congr 1
  apply BitVec.eq_of_getLsbD_eq
  intro j hj
  rw [BitVec.getLsbD_xor, getLsbD_byteOfBits _ hj, getLsbD_byteOfBits _ hj, getLsbD_byteOfBits _ hj]

/-- XORing a byte into S is XORing its bits at their positions. -/
theorem xorByte_eq_xorMask (S : Sponge) {i : Nat} (b : Byte) (h : i < 200) :
    xorByte S i b = .ok (xorMask S fun q => decide (q / 8 = i) && b.getLsbD (q % 8)) := by
  rw [xorByte_of_lt h]
  refine congrArg Except.ok (Vector.ext fun k hk => ?_)
  have hmask : (byteOfBits fun j => decide ((8 * k + j) / 8 = i) && b.getLsbD ((8 * k + j) % 8)) =
      if i = k then b else 0 := by
    apply BitVec.eq_of_getLsbD_eq
    intro j hj
    have hdiv : (8 * k + j) / 8 = k := by omega
    have hmod : (8 * k + j) % 8 = j := by omega
    rw [getLsbD_byteOfBits _ hj, hdiv, hmod]
    by_cases hik : i = k
    · simp [hik]
    · simp [hik, Ne.symm hik]
  rw [getElem_xorMask _ _ hk, hmask, Vector.getElem_set]
  by_cases hik : i = k
  · subst hik; simp
  · simp [hik]

/-! ## The tail positions (R186) -/

theorem mem_setBits {w : Nat} {v : BitVec w} {n base q : Nat} :
    q ∈ setBits v n base ↔ base ≤ q ∧ q < base + n ∧ v.getLsbD (q - base) = true := by
  simp only [setBits, List.mem_map, List.mem_filter, List.mem_range]
  constructor
  · rintro ⟨k, ⟨hk, hbit⟩, rfl⟩
    rw [Nat.add_sub_cancel_left]
    exact ⟨by omega, by omega, hbit⟩
  · rintro ⟨hlo, hhi, hbit⟩
    exact ⟨q - base, ⟨by omega, hbit⟩, by omega⟩

theorem nodup_setBits {w : Nat} (v : BitVec w) (n base : Nat) : (setBits v n base).Nodup :=
  (List.nodup_range.filter _).map (add_right_injective base)

/-- The message bits end where the suffix bits begin, so the two groups are disjoint. -/
theorem nodup_message_suffix {w w' : Nat} (v : BitVec w) (suffix : BitVec w') (base t n : Nat) :
    (setBits v t base ++ setBits suffix n (base + t)).Nodup := by
  refine (nodup_setBits v t base).append (nodup_setBits suffix n (base + t)) fun q hq hq' => ?_
  obtain ⟨-, hlt, -⟩ := mem_setBits.mp hq
  obtain ⟨hge, -⟩ := mem_setBits.mp hq'
  omega

theorem nodup_tailPositions (r base t : Nat) (v : Byte) (suffix : BitVec 4) (n : Nat) :
    (tailPositions r base t v suffix n).Nodup :=
  ((nodup_message_suffix v suffix base t n).insert).insert

/-- The length E of the tail (R186). -/
def tailEnd (s : State) (t : BitVec 3) : Nat :=
  if tailFits s t then s.rateBits.toNat else 2 * s.rateBits.toNat

theorem tailFits_iff {s : State} {t : BitVec 3} :
    tailFits s t = true ↔ tailStart s t + s.suffixLen.toNat + 2 ≤ s.rateBits.toNat := by
  rw [tailFits, decide_eq_true_eq]

theorem tailBlocks_eq (s : State) (t : BitVec 3) :
    tailBlocks s.rateBits.toNat (tailStart s t) s.suffixLen.toNat = if tailFits s t then 1 else 2 := by
  simp only [tailBlocks, tailFits_iff]

theorem tailBlocks_mul_rateBits (s : State) (t : BitVec 3) :
    tailBlocks s.rateBits.toNat (tailStart s t) s.suffixLen.toNat * s.rateBits.toNat = tailEnd s t := by
  rw [tailBlocks_eq, tailEnd]
  split_ifs
  · exact Nat.one_mul _
  · rfl

/-- The list Q of R186 and its set, as the predicate on positions. -/
theorem mem_tailPositions_iff_tailBit (s : State) (t : BitVec 3) (v : Byte) (q : Nat) (h0 : 0 < s.rateBits.toNat) :
    q ∈ tailPositions s.rateBits.toNat (8 * s.absOff.toNat) t.toNat v s.suffix s.suffixLen.toNat ↔
      tailBit s t v q = true := by
  have hlast : q = tailBlocks s.rateBits.toNat (tailStart s t) s.suffixLen.toNat * s.rateBits.toNat - 1 ↔
      q + 1 = if tailFits s t then s.rateBits.toNat else 2 * s.rateBits.toNat := by
    rw [tailBlocks_mul_rateBits, tailEnd]
    split_ifs <;> omega
  simp only [tailBit, Bool.or_eq_true, Bool.and_eq_true, decide_eq_true_eq, ← hlast]
  simp only [tailPositions, tailStart, List.mem_insert_iff, List.mem_append, mem_setBits]
  tauto

/-! ## PadAndPermute (R186) -/

theorem xorBits_eq_xorMask {Q : List Nat} (hnodup : Q.Nodup) :
    ∀ S : Sponge, (∀ q ∈ Q, q < 1600) → xorBits S Q = .ok (xorMask S fun q => decide (q ∈ Q)) := by
  induction Q with
  | nil => intro S _; simp [xorBits, xorMask_false]
  | cons p rest ih =>
    intro S hlt
    obtain ⟨hp, hrest⟩ := List.nodup_cons.mp hnodup
    have hp200 : p / 8 < 200 := by have := hlt p List.mem_cons_self; omega
    have hone : (xorMask S fun q => decide (q / 8 = p / 8) && (1#8 <<< (p % 8)).getLsbD (q % 8)) =
        xorMask S fun q => decide (q = p) := by
      refine xorMask_congr S fun q _ => ?_
      rw [getLsbD_one_shiftLeft _ (Nat.mod_lt _ (by decide)), ← Bool.decide_and]
      exact decide_eq_decide.mpr (by omega)
    rw [xorBits, xorByte_eq_xorMask S _ hp200, hone]
    simp only
    rw [ih hrest _ fun q hq => hlt q (List.mem_cons_of_mem p hq), xorMask_xorMask]
    congr 2
    funext q
    by_cases hqp : q = p
    · subst hqp; simp [hp]
    · simp [hqp]

theorem mem_blockPositions_iff {r k q : Nat} {Q : List Nat} :
    q ∈ blockPositions r k Q ↔ q < r ∧ k * r + q ∈ Q := by
  simp only [blockPositions, List.mem_map, List.mem_filter, decide_eq_true_eq, Nat.add_mul, Nat.one_mul]
  constructor
  · rintro ⟨p, ⟨hp, hlo, hhi⟩, rfl⟩
    exact ⟨by omega, by rwa [Nat.add_sub_cancel' hlo]⟩
  · rintro ⟨hq, hmem⟩
    exact ⟨k * r + q, ⟨hmem, by omega, by omega⟩, by omega⟩

theorem nodup_blockPositions (r k : Nat) {Q : List Nat} (h : Q.Nodup) : (blockPositions r k Q).Nodup := by
  refine (h.filter _).map_on fun p hp q hq hpq => ?_
  simp only [List.mem_filter, decide_eq_true_eq] at hp hq
  omega

/-- One turn of the outer loop of R186. -/
theorem padBlocks_succ {r : Nat} (hr : r ≤ 1600) {Q : List Nat} (hnodup : Q.Nodup) {bit : Nat → Bool}
    (hQ : ∀ q, q ∈ Q ↔ bit q = true) (n k : Nat) (S : Sponge) :
    padBlocks r Q (n + 1) k S = padBlocks r Q n (k + 1) (padBlockSpec r k bit S) := by
  have hbits : ∀ q ∈ blockPositions r k Q, q < 1600 := fun q hq => by
    have := mem_blockPositions hq
    omega
  rw [padBlocks, xorBits_eq_xorMask (nodup_blockPositions r k hnodup) S hbits, padBlockSpec_eq]
  simp only [mem_blockPositions_iff, hQ, Bool.decide_and, Bool.decide_eq_true]

/-- PadAndPermute is what R186 writes, bit by bit. -/
theorem padAndPermute_eq_padSpec (t : BitVec 3) (v : Byte) {s : State} (h0 : 0 < s.rateBits.toNat)
    (hr : s.rateBits.toNat ≤ 1600) : padAndPermute t v s = .ok (padSpec s t v) := by
  have hstep := padBlocks_succ hr (nodup_tailPositions _ _ _ _ _ _) (mem_tailPositions_iff_tailBit s t v · h0)
  have hblocks : tailBlocks s.rateBits.toNat (8 * s.absOff.toNat + t.toNat) s.suffixLen.toNat =
      if tailFits s t then 1 else 2 := tailBlocks_eq s t
  simp only [padAndPermute, if_neg (Nat.ne_of_gt h0), hblocks, padSpec]
  cases tailFits s t with
  | true => exact hstep 0 0 _
  | false => exact (hstep 1 0 _).trans (hstep 0 1 _)

/-- The last pad bit meets no bit of PADSTART, so both may be XORed into one byte (R143). -/
theorem getLsbD_startPad_xor_lastPad {p q : Prop} [Decidable p] [Decidable q] {start : Byte}
    (hstart : start.getLsbD 7 = false) {j : Nat} (hj : j < 8) :
    ((if p then start else 0) ^^^ (if q then 0x80 else 0)).getLsbD j =
      ((decide p && start.getLsbD j) || (decide q && decide (j = 7))) := by
  have hlast : (0x80#8).getLsbD j = decide (j = 7) := by revert j; decide
  have hmeet : (start.getLsbD j ^^ decide (j = 7)) = (start.getLsbD j || decide (j = 7)) := by
    by_cases hj7 : j = 7
    · rw [hj7, hstart]
      rfl
    · simp [hj7]
  rw [BitVec.getLsbD_xor]
  by_cases hp : p <;> by_cases hq : q <;> simp [hp, hq, hlast, hmeet]

/-! ## The tail of a state ready to absorb (R185) -/

section Absorbing

variable {s : State} (h : s.Absorbing)
include h

theorem rateBits_pos : 0 < s.rateBits.toNat := by
  obtain ⟨-, ⟨⟨-, -, hbytes, hpos⟩, -⟩, -⟩ := h
  omega

theorem rateBits_le : s.rateBits.toNat ≤ 1600 := by
  obtain ⟨-, ⟨⟨-, hsum, -, -⟩, -⟩, -⟩ := h
  omega

/-- Trailing bits never fill the byte they start in, so the tail starts inside the block. -/
theorem tailStart_lt (t : BitVec 3) : tailStart s t < s.rateBits.toNat := by
  obtain ⟨-, ⟨⟨-, -, hbytes, -⟩, -⟩, hin⟩ := h
  have ht := t.isLt
  simp only [tailStart]
  omega

theorem suffixLen_le : s.suffixLen.toNat ≤ 4 := by
  obtain ⟨-, ⟨-, ⟨-, -, hlen, -⟩ | ⟨-, -, hlen, -⟩, -⟩, -⟩ := h <;> simp [hlen]

/-- The suffix and both pad bits fit what is left of the block, or else a second block (R186). -/
theorem tail_lt_tailEnd (t : BitVec 3) : tailStart s t + s.suffixLen.toNat + 1 < tailEnd s t := by
  have hstart := tailStart_lt h t
  have hlen := suffixLen_le h
  obtain ⟨-, ⟨⟨-, -, hbytes, hpos⟩, -⟩, -⟩ := h
  unfold tailEnd
  split_ifs with hfits
  · have := tailFits_iff.mp hfits
    omega
  · omega

/-- With TBITS = 0 the tail fits the block (R187). -/
theorem tailFits_zero : tailFits s 0 = true := by
  have hlen := suffixLen_le h
  obtain ⟨-, ⟨⟨-, -, hbytes, -⟩, -⟩, hin⟩ := h
  have hstart : tailStart s 0 = 8 * s.absOff.toNat := rfl
  rw [tailFits_iff, hstart]
  omega

/-- PADSTART is the suffix with the first pad bit above it (R143). -/
theorem getLsbD_padStart {j : Nat} (hj : j < 8) :
    (if s.dom = 0 then 0x06 else 0x1F : Byte).getLsbD j =
      ((decide (j < s.suffixLen.toNat) && s.suffix.getLsbD j) || decide (j = s.suffixLen.toNat)) := by
  obtain ⟨-, ⟨-, ⟨hd, hsuffix, hlen, -⟩ | ⟨hd, hsuffix, hlen, -⟩, -⟩, -⟩ := h <;>
    rw [hd, hsuffix, hlen] <;> revert j <;> decide

/-- With TBITS = 0 the tail bits are those of PADSTART in byte ABS_OFF and bit 7 of the last byte of the block. -/
theorem tailBit_zero (v : Byte) (i : Nat) {j : Nat} (hj : j < 8) :
    (decide (8 * i + j < s.rateBits.toNat) && tailBit s 0 v (8 * i + j)) =
      ((decide (i = s.absOff.toNat) && (if s.dom = 0 then 0x06 else 0x1F : Byte).getLsbD j) ||
        (decide (i + 1 = s.rateBytes.toNat) && decide (j = 7))) := by
  have hlen := suffixLen_le h
  have hfits := tailFits_zero h
  rw [getLsbD_padStart h hj]
  obtain ⟨-, ⟨⟨-, -, hbytes, -⟩, -⟩, hin⟩ := h
  have hstart : tailStart s 0 = 8 * s.absOff.toNat := rfl
  rw [Bool.eq_iff_iff]
  simp only [tailBit, hfits, if_true, hstart, Bool.and_eq_true, Bool.or_eq_true, decide_eq_true_eq]
  by_cases hi : i = s.absOff.toNat
  · subst hi
    rw [Nat.add_sub_cancel_left]
    cases s.suffix.getLsbD j <;> simp <;> omega
  · omega

end Absorbing

/-! ## The padded message (R184) -/

theorem length_pad101 (r m : Nat) : (pad101 r m).length = padZeros r m + 2 := by
  simp [pad101]

theorem length_paddedMessage (r : Nat) (m d : List Bool) :
    (paddedMessage r m d).length = m.length + d.length + 2 + padZeros r (m.length + d.length) := by
  simp only [paddedMessage, List.length_append, length_pad101]
  omega

theorem coe_padZeros {r : Nat} (hr : 1 ≤ r) (m : Nat) : (padZeros r m : Int) = (-(m : Int) - 2) % r :=
  Int.toNat_of_nonneg (Int.emod_nonneg _ (by omega))

theorem padZeros_lt {r : Nat} (hr : 1 ≤ r) (m : Nat) : padZeros r m < r := by
  have h : (padZeros r m : Int) < r := by
    rw [coe_padZeros hr]
    exact Int.emod_lt_of_pos _ (by omega)
  omega

theorem dvd_add_padZeros {r : Nat} (hr : 1 ≤ r) (m : Nat) : r ∣ m + 2 + padZeros r m := by
  have h := Int.dvd_self_sub_emod (x := -(m : Int) - 2) (m := r)
  rw [← coe_padZeros hr, ← Int.dvd_neg] at h
  have e : -(-(m : Int) - 2 - (padZeros r m : Int)) = ((m + 2 + padZeros r m : Nat) : Int) := by
    push_cast
    ring
  rw [e] at h
  exact_mod_cast h

theorem dvd_length_paddedMessage {r : Nat} (hr : 1 ≤ r) (m d : List Bool) : r ∣ (paddedMessage r m d).length := by
  rw [length_paddedMessage]
  exact dvd_add_padZeros hr _

/-- The padding depends on the message's length mod r only. -/
theorem padZeros_add_mul (r m k : Nat) : padZeros r (m + r * k) = padZeros r m := by
  have e : -((m + r * k : Nat) : Int) - 2 = -(m : Int) - 2 + r * (-k) := by
    push_cast
    ring
  rw [padZeros, e, Int.add_mul_emod_self_left, padZeros]

end Sys2Proof.Padding

/-- Settles O34: `Padding.dvd_length_paddedMessage` and the bound of a remainder. -/
theorem paddedLengthIsLeast : Obligations.PaddedLengthIsLeast := by
  intro r m d hr
  have hlt := Padding.padZeros_lt hr (m.length + d.length)
  refine ⟨Padding.dvd_length_paddedMessage hr m d, ?_, ?_⟩ <;> rw [Padding.length_paddedMessage] <;> omega

/-- Settles O28: the groups lie in consecutive ranges, and the last pad bit is past the first. -/
theorem tailGroupsAreDisjoint : Obligations.TailGroupsAreDisjoint := by
  intro t v s hs
  have hlast := Padding.tail_lt_tailEnd hs t
  rw [Padding.tailBlocks_mul_rateBits]
  refine (Padding.nodup_message_suffix v s.suffix _ _ _).append ?_ ?_
  · rw [List.nodup_cons, List.mem_singleton]
    exact ⟨by omega, List.nodup_singleton _⟩
  intro q hq hpad
  have hlt : q < tailStart s t + s.suffixLen.toNat := by
    obtain hmsg | hsuffix := List.mem_append.mp hq
    · obtain ⟨-, hlt, -⟩ := Padding.mem_setBits.mp hmsg
      simp only [tailStart]
      omega
    · obtain ⟨-, hlt, -⟩ := Padding.mem_setBits.mp hsuffix
      exact hlt
  simp only [List.mem_cons, List.not_mem_nil, or_false] at hpad
  omega

/-- Settles O30: the tail bits of a byte-aligned message, byte by byte (`Padding.tailBit_zero`). -/
theorem byteAlignedPadding : Obligations.ByteAlignedPadding := by
  intro v s hs
  rw [Padding.padAndPermute_eq_padSpec 0 v (Padding.rateBits_pos hs) (Padding.rateBits_le hs), padSpec,
    Padding.tailFits_zero hs, if_pos rfl, Padding.padBlockSpec_eq]
  refine congrArg Except.ok (congrArg keccakF (Vector.ext fun i hi => ?_))
  rw [Padding.getElem_xorMask _ _ hi, Vector.getElem_ofFn, BitVec.xor_assoc]
  congr 1
  apply BitVec.eq_of_getLsbD_eq
  intro j hj
  rw [Padding.getLsbD_byteOfBits _ hj, Nat.zero_mul, Nat.zero_add, Padding.tailBit_zero hs v i hj]
  exact (Padding.getLsbD_startPad_xor_lastPad (by split_ifs <;> rfl) hj).symm

/-- Settles O29: with r = 8 · RATE_BYTES, the tail of at most 7 + 4 + 2 bits overflows from the last byte only. -/
theorem secondTailBlockExactly : Obligations.SecondTailBlockExactly := by
  rintro t s ⟨-, ⟨⟨-, -, hbytes, -⟩, hdom, -⟩, hin⟩
  have ht := t.isLt
  have htwo : tailBlocks s.rateBits.toNat (tailStart s t) s.suffixLen.toNat = 2 ↔
      s.rateBits.toNat < tailStart s t + s.suffixLen.toNat + 2 := by
    unfold tailBlocks
    split_ifs <;> omega
  rw [htwo, tailStart]
  obtain ⟨hd, -, hlen, -⟩ | ⟨hd, -, hlen, -⟩ := hdom <;> simp [hd, hlen] <;> omega
end

section
/-! PROOF. A session computes the sponge of R184 and R200 on bit strings (R189): the byte loop of ABSORB (R174), the
tail of FINALIZE (R186), the output stream (R201) and its mask (R203), each as what it does to the bits. -/

open Sys2Proof
open Sys2Proof.Machine
open Sys2Proof.Claims

namespace Sys2Proof.BitSponge

/-! ## Bit strings (R13) -/

/-- A missing bit counts as 0, in two strings joined as in one. -/
theorem getD_append (a b : List Bool) (q : Nat) :
    (a ++ b)[q]?.getD false = if q < a.length then a[q]?.getD false else b[q - a.length]?.getD false := by
  rw [List.getElem?_append]
  split_ifs <;> rfl

@[simp] theorem getD_replicate_false (n q : Nat) : (List.replicate n false)[q]?.getD false = false := by
  rw [List.getElem?_replicate]
  split_ifs <;> rfl

@[simp] theorem length_byteBits (b : Byte) : (byteBits b).length = 8 := by
  simp [byteBits]

theorem getD_byteBits (b : Byte) (k : Nat) : (byteBits b)[k]?.getD false = b.getLsbD k := by
  by_cases hk : k < 8
  · simp [byteBits, hk]
  · rw [List.getElem?_eq_none (by rw [length_byteBits]; omega), BitVec.getLsbD_of_ge _ _ (by omega)]
    rfl

theorem messageBits_cons (b : Byte) (p : List Byte) : messageBits (b :: p) = byteBits b ++ messageBits p := rfl

@[simp] theorem length_messageBits (p : List Byte) : (messageBits p).length = 8 * p.length := by
  induction p with
  | nil => rfl
  | cons b rest ih =>
    rw [messageBits_cons, List.length_append, length_byteBits, ih, List.length_cons]
    omega

/-! ## Absorbing bit strings (R184) -/

/-- A string of whole blocks absorbed, as the sponge does it with the padded message. -/
def absorbAll (r : Nat) (S : Sponge) (bits : List Bool) : Sponge := absorbBits r (bits.length / r) S bits

theorem absorbAll_block {r : Nat} (hr : 0 < r) (S : Sponge) {block : List Bool} (rest : List Bool)
    (hb : block.length = r) : absorbAll r S (block ++ rest) = absorbAll r (keccakF (xorBlock S block)) rest := by
  have hn : (block ++ rest).length / r = rest.length / r + 1 := by
    rw [List.length_append, hb, Nat.add_div_left _ hr]
  rw [absorbAll, hn, absorbBits, List.take_left' hb, List.drop_left' hb, absorbAll]

/-- Zero bits change nothing. -/
theorem xorBlock_zeros (S : Sponge) (n : Nat) : xorBlock S (List.replicate n false) = S := by
  simp only [Padding.xorBlock_eq, getD_replicate_false, Padding.xorMask_false]

/-- A byte that has been XORed in at offset o stands in the block as eight zero bits. -/
theorem xorBlock_xorByte {S S' : Sponge} {o : Nat} {b : Byte} (h : xorByte S o b = .ok S') (ho : o < 200)
    (X : List Bool) :
    xorBlock S (List.replicate (8 * o) false ++ (byteBits b ++ X)) =
      xorBlock S' (List.replicate (8 * o + 8) false ++ X) := by
  rw [Padding.xorByte_eq_xorMask S b ho] at h
  obtain rfl := Except.ok.inj h
  rw [Padding.xorBlock_eq, Padding.xorBlock_eq, Padding.xorMask_xorMask]
  refine Padding.xorMask_congr S fun q _ => ?_
  simp only [getD_append, List.length_replicate, length_byteBits, getD_replicate_false, getD_byteBits]
  by_cases hlo : q < 8 * o
  · have hne : q / 8 ≠ o := by omega
    rw [if_pos hlo, if_pos (by omega), decide_eq_false hne]
    rfl
  · by_cases hhi : q - 8 * o < 8
    · have hdiv : q / 8 = o := by omega
      have hmod : q % 8 = q - 8 * o := by omega
      rw [if_neg hlo, if_pos hhi, if_pos (by omega), decide_eq_true hdiv, hmod]
      simp
    · have hne : q / 8 ≠ o := by omega
      rw [if_neg hlo, if_neg hhi, if_neg (by omega), decide_eq_false hne, Nat.sub_sub]
      simp

/-- The block that a byte is XORed into absorbs the same string with eight zero bits for the byte. -/
theorem absorbAll_xorByte {r : Nat} {S S' : Sponge} {o : Nat} {b : Byte} (h : xorByte S o b = .ok S') (ho : o < 200)
    {X : List Bool} (hin : 8 * o + 8 ≤ r) (hX : r ≤ 8 * o + 8 + X.length) :
    absorbAll r S (List.replicate (8 * o) false ++ (byteBits b ++ X)) =
      absorbAll r S' (List.replicate (8 * o + 8) false ++ X) := by
  have hr : 0 < r := by omega
  obtain ⟨X1, X2, rfl, hX1⟩ : ∃ X1 X2, X = X1 ++ X2 ∧ X1.length = r - (8 * o + 8) :=
    ⟨_, _, (List.take_append_drop _ X).symm, List.length_take_of_le (by omega)⟩
  have hbyte : (List.replicate (8 * o) false ++ (byteBits b ++ X1)).length = r := by
    simp
    omega
  have hzero : (List.replicate (8 * o + 8) false ++ X1).length = r := by
    simp
    omega
  have e := absorbAll_block hr S X2 hbyte
  rw [xorBlock_xorByte h ho, ← absorbAll_block hr S' X2 hzero] at e
  simpa only [List.append_assoc] using e

/-- One AbsorbByte (R174): what is still to be absorbed is the rest of the string, and the bytes of the block so far
count as zero bits. -/
theorem absorbAll_absorbByte {rb : BitVec 8} {c c' : Cursor} {b : Byte} (h : absorbByte rb c b = .ok c')
    (hr : rb.toNat ≤ 200) (hc : c.pos.toNat < rb.toNat) {X : List Bool}
    (hX : 8 * rb.toNat ≤ 8 * c.pos.toNat + 8 + X.length) :
    absorbAll (8 * rb.toNat) c.sponge (List.replicate (8 * c.pos.toNat) false ++ (byteBits b ++ X)) =
      absorbAll (8 * rb.toNat) c'.sponge (List.replicate (8 * c'.pos.toNat) false ++ X) := by
  have h200 : c.pos.toNat < 200 := by omega
  rw [absorbAll_xorByte (xorByte_of_lt h200) h200 (by omega) hX]
  rw [absorbByte_of_lt h200] at h
  cases h
  by_cases hfull : c.pos + 1 = rb
  · have hpos : 8 * c.pos.toNat + 8 = 8 * rb.toNat := by
      rw [← hfull, toNat_add_one_of_lt hc]
      omega
    rw [if_pos hfull, hpos, absorbAll_block (by omega) _ X List.length_replicate, xorBlock_zeros]
    rfl
  · rw [if_neg hfull]
    simp only [toNat_add_one_of_lt hc, Nat.mul_add]

/-- The loop of R173: the bits of the payload are absorbed, and a string X that ends in a whole block is left. -/
theorem absorbAll_absorbBytes {rb : BitVec 8} (hr : rb.toNat ≤ 200) {X : List Bool} (hX : 0 < X.length)
    (p : List Byte) : ∀ c c' : Cursor, absorbBytes rb p c = .ok c' → c.pos.toNat < rb.toNat →
      8 * rb.toNat ∣ 8 * c.pos.toNat + 8 * p.length + X.length →
      absorbAll (8 * rb.toNat) c.sponge (List.replicate (8 * c.pos.toNat) false ++ (messageBits p ++ X)) =
        absorbAll (8 * rb.toNat) c'.sponge (List.replicate (8 * c'.pos.toNat) false ++ X) := by
  induction p with
  | nil =>
    intro c c' h _ _
    cases h
    rfl
  | cons b rest ih =>
    intro c c' h hc hdvd
    rw [List.length_cons] at hdvd
    obtain ⟨c1, h1, hlt, hpos⟩ := absorbByte_ok (b := b) hc hr
    rw [absorbBytes, h1] at h
    have hle := Nat.le_of_dvd (by omega) hdvd
    have hblocks : 8 * c.pos.toNat + 8 * (rest.length + 1) + X.length =
        8 * c1.pos.toNat + 8 * rest.length + X.length + 8 * rb.toNat * ((c.pos.toNat + 1) / rb.toNat) := by
      have := Nat.mod_add_div (c.pos.toNat + 1) rb.toNat
      rw [hpos, Nat.mul_assoc]
      omega
    have hdvd1 := (Nat.dvd_add_left (Nat.dvd_mul_right _ _)).mp (hblocks ▸ hdvd)
    rw [messageBits_cons, List.append_assoc, absorbAll_absorbByte h1 hr hc (by simp; omega)]
    exact ih c1 c' h hlt hdvd1

/-! ## The tail (R185, R186) -/

/-- Block k of a string whose bits are `bit` is absorbed as R186 absorbs a tail block. -/
theorem absorbBits_succ {r k : Nat} {bit : Nat → Bool} {bits : List Bool}
    (hbits : ∀ q, bits[q]?.getD false = bit (k * r + q)) (n : Nat) (S : Sponge) :
    absorbBits r (n + 1) S bits = absorbBits r n (padBlockSpec r k bit S) (bits.drop r) := by
  rw [absorbBits, Padding.padBlockSpec_eq, Padding.xorBlock_eq]
  refine congrArg (absorbBits r n · (bits.drop r)) (congrArg keccakF (Padding.xorMask_congr S fun q _ => ?_))
  rw [List.getElem?_take, ← hbits q]
  split_ifs with hq <;> simp [hq]

theorem getD_trailingBits (t : BitVec 3) (v : Byte) (k : Nat) :
    (trailingBits t v)[k]?.getD false = (decide (k < t.toNat) && v.getLsbD k) := by
  rw [trailingBits, List.getElem?_take]
  split_ifs with hk <;> simp [hk, getD_byteBits]

@[simp] theorem length_trailingBits (t : BitVec 3) (v : Byte) : (trailingBits t v).length = t.toNat := by
  have := t.isLt
  rw [trailingBits, List.length_take, length_byteBits]
  omega

/-- The domain registers hold the suffix of the domain (R142). -/
theorem suffix_of_absorbing {s : State} {d : Domain} (h : s.Absorbing) (hd : s.dom = d.code) :
    s.suffix = domainSuffix d ∧ s.suffixLen = domainSuffixLen d := by
  obtain ⟨-, ⟨-, hlegal, -⟩, -⟩ := h
  obtain ⟨hdom, hsuffix, hlen, -⟩ | ⟨hdom, hsuffix, hlen, -⟩ := hlegal <;> cases d <;>
    simp_all [Domain.code, domainSuffix, domainSuffixLen]

@[simp] theorem length_suffixBits (d : Domain) : (suffixBits d).length = (domainSuffixLen d).toNat := by
  cases d <;> rfl

theorem getD_suffixBits (d : Domain) {k : Nat} (hk : k < (domainSuffixLen d).toNat) :
    (suffixBits d)[k]?.getD false = (domainSuffix d).getLsbD k := by
  revert k
  cases d <;> decide

theorem getD_pad101 (r m k : Nat) :
    (pad101 r m)[k]?.getD false = (decide (k = 0) || decide (k = padZeros r m + 1)) := by
  cases k with
  | zero => rfl
  | succ k =>
    rw [pad101, List.getElem?_cons_succ, getD_append, getD_replicate_false, List.length_replicate,
      List.getElem?_singleton]
    split_ifs <;> simp <;> omega

/-- The padded tail as a bit string, the bytes of the block so far counted as zero bits (R184, R185). -/
def tailString (s : State) (d : Domain) (t : BitVec 3) (v : Byte) : List Bool :=
  paddedMessage s.rateBits.toNat (List.replicate (8 * s.absOff.toNat) false ++ trailingBits t v) (suffixBits d)

/-- Two multiples of r less than r apart are one. -/
theorem eq_of_dvd_of_lt_add {r a b : Nat} (ha : r ∣ a) (hb : r ∣ b) (hab : a < b + r) (hba : b < a + r) : a = b := by
  have h1 := Nat.eq_zero_of_dvd_of_lt (Nat.dvd_sub ha hb) (by omega)
  have h2 := Nat.eq_zero_of_dvd_of_lt (Nat.dvd_sub hb ha) (by omega)
  omega

section Tail

variable {s : State} (h : s.Absorbing) {d : Domain} (hd : s.dom = d.code) (t : BitVec 3) (v : Byte)
include h

/-- One block or two, the tail ends at the least multiple of r that holds its bits (R184, R186). -/
theorem tailEnd_eq :
    Padding.tailEnd s t = tailStart s t + s.suffixLen.toNat + 2 +
      padZeros s.rateBits.toNat (tailStart s t + s.suffixLen.toNat) := by
  have hpos := Padding.rateBits_pos h
  have hlt := Padding.padZeros_lt hpos (tailStart s t + s.suffixLen.toNat)
  have hend := Padding.tail_lt_tailEnd h t
  have hdvd : s.rateBits.toNat ∣ Padding.tailEnd s t :=
    Padding.tailBlocks_mul_rateBits s t ▸ Nat.dvd_mul_left _ _
  refine eq_of_dvd_of_lt_add hdvd (Padding.dvd_add_padZeros hpos _) ?_ (by omega)
  by_cases hfits : tailFits s t
  · rw [Padding.tailEnd, if_pos hfits]
    omega
  · rw [Padding.tailEnd, if_neg hfits]
    rw [Padding.tailFits_iff] at hfits
    omega

include hd

theorem length_tailString : (tailString s d t v).length = Padding.tailEnd s t := by
  obtain ⟨-, hlen⟩ := suffix_of_absorbing h hd
  rw [tailEnd_eq h, tailString, Padding.length_paddedMessage]
  simp [hlen, tailStart]

/-- The bits of the padded tail are those of the set Q of R186. -/
theorem getD_tailString (q : Nat) : (tailString s d t v)[q]?.getD false = tailBit s t v q := by
  obtain ⟨hsuffix, hlen⟩ := suffix_of_absorbing h hd
  have hend : q + 1 = (if tailFits s t then s.rateBits.toNat else 2 * s.rateBits.toNat) ↔
      q + 1 = tailStart s t + s.suffixLen.toNat + 2 +
        padZeros s.rateBits.toNat (tailStart s t + s.suffixLen.toNat) := by
    rw [← tailEnd_eq h, Padding.tailEnd]
  simp only [tailBit, decide_eq_decide.mpr hend]
  simp only [tailString, paddedMessage, getD_append, List.length_append, List.length_replicate, length_trailingBits,
    length_suffixBits, getD_replicate_false, getD_trailingBits, getD_pad101, ← hlen]
  rw [← tailStart]
  have hL : tailStart s t = 8 * s.absOff.toNat + t.toNat := rfl
  have hsuf : ¬q < tailStart s t → q < tailStart s t + s.suffixLen.toNat →
      (suffixBits d)[q - tailStart s t]?.getD false = s.suffix.getLsbD (q - tailStart s t) := fun hlo hhi => by
    rw [hsuffix]
    exact getD_suffixBits d (by rw [← hlen]; omega)
  generalize v.getLsbD (q - 8 * s.absOff.toNat) = message at hsuf ⊢
  generalize s.suffix.getLsbD (q - tailStart s t) = suffix at hsuf ⊢
  rw [Bool.eq_iff_iff]
  split_ifs with hin hmsg hold
  · cases message <;> cases suffix <;> simp <;> omega
  · cases message <;> simp <;> omega
  · rw [hsuf hmsg hin]
    cases suffix <;> simp <;> omega
  · simp
    omega

end Tail

/-- PadAndPermute absorbs the padded tail. -/
theorem padSpec_eq_absorbAll {s : State} (h : s.Absorbing) {d : Domain} (hd : s.dom = d.code) (t : BitVec 3)
    (v : Byte) : padSpec s t v = absorbAll s.rateBits.toNat s.sponge (tailString s d t v) := by
  have hfirst := absorbBits_succ (r := s.rateBits.toNat) (k := 0) (bit := tailBit s t v) fun q => by
    rw [Nat.zero_mul, Nat.zero_add, getD_tailString h hd]
  have hsecond := absorbBits_succ (r := s.rateBits.toNat) (k := 1) (bit := tailBit s t v)
    (bits := (tailString s d t v).drop s.rateBits.toNat) fun q => by
      rw [List.getElem?_drop, Nat.one_mul, getD_tailString h hd]
  rw [absorbAll, length_tailString h hd, padSpec, Padding.tailEnd]
  cases tailFits s t with
  | true =>
    simp only [if_true, Nat.div_self (Padding.rateBits_pos h)]
    exact (hfirst 0 _).symm
  | false =>
    simp only [Bool.false_eq_true, if_false, Nat.mul_div_cancel _ (Padding.rateBits_pos h)]
    exact ((hfirst 1 _).trans (hsecond 0 _)).symm

/-! ## The output stream (R200, R201) -/

/-- Byte m of the output stream of a state: byte m of its block, and past the block that of the permuted state. -/
def streamByte (rb : Nat) (S : Sponge) (m : Nat) : Byte := (keccakF^[m / rb] S)[m % rb]?.getD 0

theorem streamByte_of_lt {rb : Nat} (S : Sponge) {m : Nat} (hm : m < rb) : streamByte rb S m = S[m]?.getD 0 := by
  rw [streamByte, Nat.div_eq_of_lt hm, Nat.mod_eq_of_lt hm]
  rfl

theorem streamByte_add {rb : Nat} (h0 : 0 < rb) (S : Sponge) (m : Nat) :
    streamByte rb S (rb + m) = streamByte rb (keccakF S) m := by
  rw [streamByte, Nat.add_div_left _ h0, Nat.add_mod_left, Function.iterate_succ_apply, streamByte]

/-- Permute-on-demand leaves the stream as it was. -/
theorem streamByte_refill {rb : BitVec 8} (h0 : 0 < rb.toNat) (c : Cursor) (m : Nat) :
    streamByte rb.toNat (refill rb c).sponge ((refill rb c).pos.toNat + m) =
      streamByte rb.toNat c.sponge (c.pos.toNat + m) := by
  unfold refill
  split_ifs with hfull
  · rw [hfull, streamByte_add h0]
    simp
  · rfl

/-- One squeezed byte is the next of the stream, and the cursor stands at the one after it. -/
theorem squeezeByte_eq_streamByte {rb : BitVec 8} {c c' : Cursor} {b : Byte} (h0 : 0 < rb.toNat) (hr : rb.toNat ≤ 200)
    (hc : c.pos.toNat ≤ rb.toNat) (h : squeezeByte rb c = .ok (b, c')) :
    b = streamByte rb.toNat c.sponge c.pos.toNat ∧ c'.pos.toNat ≤ rb.toNat ∧
      ∀ m, streamByte rb.toNat c'.sponge (c'.pos.toNat + m) = streamByte rb.toNat c.sponge (c.pos.toNat + (m + 1)) := by
  have hlt := refill_pos_lt h0 hc
  have h200 : (refill rb c).pos.toNat < 200 := by omega
  have hrefill := streamByte_refill h0 c
  simp only [squeezeByte, byteAt_of_lt h200] at h
  cases h
  refine ⟨?_, ?_, fun m => ?_⟩
  · rw [← Nat.add_zero c.pos.toNat, ← hrefill 0, Nat.add_zero, streamByte_of_lt _ hlt, Vector.getElem?_eq_getElem h200]
    rfl
  · simp only [toNat_add_one_of_lt hlt]
    omega
  · rw [← hrefill (m + 1)]
    simp only [toNat_add_one_of_lt hlt]
    congr 1
    omega

/-- SqueezeBytes(n) gives the next n bytes of the stream. -/
theorem squeezeBytes_eq_map {rb : BitVec 8} (h0 : 0 < rb.toNat) (hr : rb.toNat ≤ 200) (n : Nat) :
    ∀ (c c' : Cursor) (o : List Byte), c.pos.toNat ≤ rb.toNat → squeezeBytes rb n c = .ok (o, c') →
      o = (List.range n).map fun m => streamByte rb.toNat c.sponge (c.pos.toNat + m) := by
  induction n with
  | zero =>
    intro c c' o _ h
    cases h
    rfl
  | succ n ih =>
    intro c c' o hc h
    obtain ⟨b, c1, h1, -⟩ := squeezeByte_ok h0 hc hr
    obtain ⟨hb, hc1, hnext⟩ := squeezeByte_eq_streamByte h0 hr hc h1
    obtain ⟨rest, c2, h2, -⟩ := squeezeBytes_ok h0 hr n c1 hc1
    simp only [squeezeBytes, h1, h2] at h
    cases h
    rw [List.range_succ_eq_map, List.map_cons, List.map_map, ih c1 _ rest hc1 h2, hb]
    simp only [hnext]
    rfl

/-- The bits of the stream, as the blocks of R200 give them. -/
theorem getElem?_squeezeBits {r : Nat} (hr : 0 < r) (K : Nat) :
    ∀ (S : Sponge) (q : Nat), q < K * r →
      (squeezeBits r K S)[q]? = some (stateBit (keccakF^[q / r] S) (q % r)) := by
  induction K with
  | zero => intro S q hq; omega
  | succ K ih =>
    intro S q hq
    rw [Nat.succ_mul] at hq
    rw [squeezeBits, List.getElem?_append]
    by_cases hlt : q < r
    · simp [rateBlock, hlt, Nat.div_eq_of_lt, Nat.mod_eq_of_lt]
    · obtain ⟨m, rfl⟩ := Nat.exists_eq_add_of_le (Nat.le_of_not_lt hlt)
      have hlen : (rateBlock r S).length = r := by simp [rateBlock]
      rw [hlen, if_neg hlt, Nat.add_sub_cancel_left, ih _ _ (by omega), Nat.add_div_left _ hr, Nat.add_mod_left,
        Function.iterate_succ_apply]

theorem length_squeezeBits (r K : Nat) (S : Sponge) : (squeezeBits r K S).length = K * r := by
  induction K generalizing S with
  | zero => simp [squeezeBits]
  | succ K ih => simp [squeezeBits, rateBlock, ih, Nat.succ_mul, Nat.add_comm]

/-- A block of whole bytes is read bit by bit as it is read byte by byte (R13). -/
theorem stateBit_stream (rb : Nat) (S : Sponge) (i : Nat) {j : Nat} (hj : j < 8) :
    stateBit (keccakF^[(8 * i + j) / (8 * rb)] S) ((8 * i + j) % (8 * rb)) = (streamByte rb S i).getLsbD j := by
  have hdiv : (8 * i + j) / 8 = i := by omega
  have hmod : (8 * i + j) % 8 = j := by omega
  rw [stateBit, streamByte, ← Nat.div_div_eq_div_mul, Nat.mod_mul_right_div_self, Nat.mod_mul_right_mod, hdiv, hmod]

/-! ## Masking (R203) -/

/-- The mask keeps the first h bits of the output. -/
theorem getLsbD_maskOutput {h : Nat} {o : List Byte} (ho : o.length = ceilDiv h 8) {i j : Nat} (hi : i < o.length)
    (hj : j < 8) :
    ((maskOutput h o)[i]?.getD 0).getLsbD j = (decide (8 * i + j < h) && o[i].getLsbD j) := by
  rw [ceilDiv] at ho
  unfold maskOutput
  split_ifs with hwhole
  · have hin : 8 * i + j < h := by omega
    simp [hi, hin]
  · have hmask : (BitVec.ofNat 8 (2 ^ (h % 8) - 1)).getLsbD j = decide (j < h % 8) := by
      rw [BitVec.getLsbD_ofNat, Nat.testBit_two_pow_sub_one, decide_eq_true hj, Bool.true_and]
    rw [List.getElem?_modify, List.getElem?_eq_getElem hi]
    by_cases hlast : o.length - 1 = i
    · have hin : 8 * i + j < h ↔ j < h % 8 := by omega
      simp only [hlast, Option.map_eq_map, Option.map_some, Option.getD_some, if_true, BitVec.getLsbD_and, hmask,
        decide_eq_decide.mpr hin, Bool.and_comm]
    · have hin : 8 * i + j < h := by omega
      simp [hlast, hin]

@[simp] theorem length_maskOutput (h : Nat) (o : List Byte) : (maskOutput h o).length = o.length := by
  unfold maskOutput
  split_ifs <;> simp

/-- The masked bytes of the stream are the first h bits of the stream, packed. -/
theorem maskOutput_eq_packBits {rb : Nat} (h0 : 0 < rb) (S : Sponge) (h : Nat) :
    maskOutput h ((List.range (ceilDiv h 8)).map (streamByte rb S)) =
      packBits ((squeezeBits (8 * rb) (ceilDiv h (8 * rb)) S).take h) := by
  have hblocks : h ≤ ceilDiv h (8 * rb) * (8 * rb) := (Encoding.ceilDiv_le_iff (by omega)).mp (Nat.le_refl _)
  have hlen : ((squeezeBits (8 * rb) (ceilDiv h (8 * rb)) S).take h).length = h := by
    rw [List.length_take, length_squeezeBits, Nat.min_eq_left hblocks]
  refine List.ext_getElem (by simp [packBits, hlen]) fun i hi _ => BitVec.eq_of_getLsbD_eq fun j hj => ?_
  have ho : i < ((List.range (ceilDiv h 8)).map (streamByte rb S)).length := by simpa using hi
  have hbit := getLsbD_maskOutput (h := h) (by simp) ho hj
  rw [List.getElem?_eq_getElem hi, Option.getD_some] at hbit
  rw [hbit]
  simp only [packBits, List.getElem_map, List.getElem_range, Padding.getLsbD_byteOfBits _ hj, List.getElem?_take]
  by_cases hin : 8 * i + j < h
  · rw [if_pos hin, getElem?_squeezeBits (by omega) _ _ _ (by omega), stateBit_stream rb S i hj]
    simp [hin]
  · simp [hin]

/-! ## The session (R189) -/

theorem runAll_append {a : List Instr} {s t : State} (b : List Instr) (h : runAll a s = .next t) :
    runAll (a ++ b) s = runAll b t := by
  induction a generalizing s with
  | nil =>
    cases h
    rfl
  | cons i rest ih =>
    rw [List.cons_append, runAll]
    rw [runAll] at h
    cases hx : exec i s with
    | next s1 =>
      rw [hx] at h
      exact ih h
    | fault f =>
      rw [hx] at h
      cases h
    | refused r =>
      rw [hx] at h
      cases h

/-- What ABSORBs write in s: S, ABS_OFF and how the last command ended. -/
def absorbed (c : Cursor) (result : Word) (lastErr : BitVec 4) (out : List Byte) (s : State) : State :=
  { s with sponge := c.sponge, absOff := c.pos, result := result, lastErr := lastErr, out := out }

/-- ABSORBs one after the other complete, run the loop of R173 over their joined payloads and write nothing else. -/
theorem runAll_absorbs_eq (ps : List (List Byte)) : ∀ s : State, s.Absorbing →
    ∃ c w e o, runAll (ps.map .absorb) s = .next (absorbed c w e o s) ∧ (absorbed c w e o s).Absorbing ∧
      absorbBytes s.rateBytes ps.flatten ⟨s.sponge, s.absOff⟩ = .ok c := by
  induction ps with
  | nil => exact fun s h => ⟨⟨s.sponge, s.absOff⟩, s.result, s.lastErr, s.out, rfl, h, rfl⟩
  | cons p rest ih =>
    rintro s ⟨hp, hparams, hin⟩
    have hrate : s.RateLegal := hparams.left
    obtain ⟨c, hc, hlt, -⟩ := absorbBytes_ok (ArchState.rateBytes_le_of_rateLegal hrate) p ⟨s.sponge, s.absOff⟩ hin
    obtain ⟨c', w, e, o, hrun, habs, hrest⟩ := ih (absorbed c (BitVec.ofNat 64 p.length) 0 [] s) ⟨hp, hparams, hlt⟩
    refine ⟨c', w, e, o, ?_, habs, ?_⟩
    · rw [List.map_cons, runAll, ArchState.exec_absorb_of_ok hp hc]
      exact hrun
    · rw [List.flatten_cons, absorbBytes_append, hc]
      exact hrest

/-- FINALIZE emits the first HASH_SIZE bits of the stream of the state that has absorbed the padded tail. -/
theorem exec_finalize_out {s : State} (h : s.Absorbing) {d : Domain} (hd : s.dom = d.code) (t : BitVec 3) (v : Byte) :
    ∃ u, exec (.finalize t v) s = .next u ∧
      u.out = packBits ((squeezeBits s.rateBits.toNat (ceilDiv s.hashSize.toNat s.rateBits.toNat)
        (absorbAll s.rateBits.toNat s.sponge (tailString s d t v))).take s.hashSize.toNat) := by
  have hpad := Padding.padAndPermute_eq_padSpec t v (Padding.rateBits_pos h) (Padding.rateBits_le h)
  rw [padSpec_eq_absorbAll h hd] at hpad
  obtain ⟨hp, ⟨hrate, -⟩, -⟩ := h
  have h0 := ArchState.rateBytes_pos_of_rateLegal hrate
  have hle := ArchState.rateBytes_le_of_rateLegal hrate
  obtain ⟨-, -, hbytes, -⟩ := hrate
  obtain ⟨o, c, hc, -⟩ := squeezeBytes_ok h0 hle (ceilDiv s.hashSize.toNat 8) ⟨_, 0⟩ (Nat.zero_le _)
  refine ⟨_, ArchState.exec_finalize_of_ok hp hpad hc, ?_⟩
  rw [complete_out, squeezeBytes_eq_map h0 hle _ _ _ _ (Nat.zero_le _) hc, ← hbytes, Nat.mul_comm _ 8,
    ← maskOutput_eq_packBits h0]
  simp

theorem paddedMessage_append (r : Nat) (a b suffix : List Bool) :
    paddedMessage r (a ++ b) suffix = a ++ (b ++ suffix ++ pad101 r (a.length + b.length + suffix.length)) := by
  simp [paddedMessage]

/-- The padding of the message and that of its tail agree, since whole blocks do not count in it. -/
theorem pad101_add_mul (r m k : Nat) : pad101 r (m + r * k) = pad101 r m := by
  rw [pad101, Padding.padZeros_add_mul, pad101]

/-- When the loop of R173 has taken p from offset 0, what is left of the padded message is the padded tail. -/
theorem absorbAll_paddedMessage {s : State} (h : s.Absorbing) (d : Domain) (t : BitVec 3) (v : Byte) {S : Sponge}
    {p : List Byte} (hp : absorbBytes s.rateBytes p ⟨S, 0⟩ = .ok ⟨s.sponge, s.absOff⟩) :
    absorbAll s.rateBits.toNat S
        (paddedMessage s.rateBits.toNat (messageBits p ++ trailingBits t v) (suffixBits d)) =
      absorbAll s.rateBits.toNat s.sponge (tailString s d t v) := by
  obtain ⟨-, ⟨hrate, -⟩, -⟩ := h
  have h0 := ArchState.rateBytes_pos_of_rateLegal hrate
  have hle := ArchState.rateBytes_le_of_rateLegal hrate
  obtain ⟨-, -, hbytes, -⟩ := hrate
  obtain ⟨c, hc, -, hoff⟩ := absorbBytes_ok hle p ⟨S, 0⟩ h0
  obtain rfl := Except.ok.inj (hc.symm.trans hp)
  replace hoff : s.absOff.toNat = p.length % s.rateBytes.toNat := by simpa using hoff
  have hmsg : 8 * p.length = 8 * s.absOff.toNat + s.rateBits.toNat * (p.length / s.rateBytes.toNat) := by
    rw [hoff, ← hbytes, Nat.mul_comm _ 8, Nat.mul_assoc, ← Nat.mul_add, Nat.mod_add_div]
  have hpad : pad101 s.rateBits.toNat ((messageBits p).length + (trailingBits t v).length + (suffixBits d).length) =
      pad101 s.rateBits.toNat (8 * s.absOff.toNat + (trailingBits t v).length + (suffixBits d).length) := by
    rw [length_messageBits, hmsg, Nat.add_right_comm _ _ (trailingBits t v).length,
      Nat.add_right_comm _ _ (suffixBits d).length, pad101_add_mul]
  have hdvd := Padding.dvd_length_paddedMessage (r := s.rateBits.toNat) (by omega) (messageBits p ++ trailingBits t v)
    (suffixBits d)
  rw [paddedMessage_append, List.length_append, length_messageBits] at hdvd
  rw [tailString, paddedMessage_append, paddedMessage_append, List.length_replicate, ← hpad]
  rw [← hbytes, Nat.mul_comm _ 8] at hdvd ⊢
  refine absorbAll_absorbBytes hle ?_ p ⟨S, 0⟩ _ hp h0 ?_
  · simp [pad101]
  · simpa using hdvd

end Sys2Proof.BitSponge

/-- Settles O35: INIT, then the loop of R173 over the joined chunks, then the padded tail and the output stream. -/
theorem sessionComputesTheSponge : Obligations.SessionComputesTheSponge := by
  intro s d chunks t v hp hparams hd
  have hstart : (complete 0 []
      { s with sponge := Sponge.zero, absOff := 0, sqzPos := 0, phase := .absorbing }).Absorbing :=
    ⟨rfl, hparams, ArchState.rateBytes_pos_of_rateLegal hparams.left⟩
  obtain ⟨c, w, e, o, hrun, habs, hc⟩ := BitSponge.runAll_absorbs_eq chunks _ hstart
  obtain ⟨u, hu, hout⟩ := BitSponge.exec_finalize_out habs hd t v
  refine ⟨u, ?_, ?_⟩
  · rw [runAll, Absorb.exec_init_of_ne hp]
    simp only
    rw [BitSponge.runAll_append _ hrun, runAll, hu]
    rfl
  · rw [hout, ← BitSponge.absorbAll_paddedMessage habs d t v hc]
    rfl
end

section
/-! PROOF. The statements of 43_squeeze.md: SqueezeBytes (R201), the mask (R203), what FINALIZE (R183) and SQUEEZE
(R205) answer, and the output as one stream (R206). -/

open Sys2Proof
open Sys2Proof.Machine
open Sys2Proof.Claims

namespace Sys2Proof.Squeeze

/-! ## SqueezeBytes (R201) -/

/-- Permute-on-demand, with the offset a number. -/
theorem refill_eq_spec (rb : BitVec 8) (c : Cursor) :
    (if c.pos.toNat = rb.toNat then (keccakF c.sponge, 0) else (c.sponge, c.pos.toNat)) =
      ((refill rb c).sponge, (refill rb c).pos.toNat) := by
  simp only [refill, BitVec.toNat_inj]
  split_ifs <;> rfl

/-- One turn of the loop of R201 inside the block: the byte at the cursor that permute-on-demand leaves. -/
theorem squeezeByte_of_le {rb : BitVec 8} {c : Cursor} (h0 : 0 < rb.toNat) (hr : rb.toNat ≤ 200)
    (hc : c.pos.toNat ≤ rb.toNat) :
    squeezeByte rb c = .ok ((refill rb c).sponge[(refill rb c).pos.toNat]?.getD 0,
      ⟨(refill rb c).sponge, (refill rb c).pos + 1⟩) := by
  have hlt : (refill rb c).pos.toNat < 200 := Nat.lt_of_lt_of_le (refill_pos_lt h0 hc) hr
  simp only [squeezeByte, byteAt_of_lt hlt, Vector.getElem?_eq_getElem hlt, Option.getD_some]

/-- The loop of R201 inside the block completes and is what R201 writes. -/
theorem squeezeBytes_eq_squeezeSpec {rb : BitVec 8} (h0 : 0 < rb.toNat) (hr : rb.toNat ≤ 200) (n : Nat) :
    ∀ c : Cursor, c.pos.toNat ≤ rb.toNat →
      let r := squeezeSpec rb.toNat n (c.sponge, c.pos.toNat)
      squeezeBytes rb n c = .ok (r.1, ⟨r.2.1, BitVec.ofNat 8 r.2.2⟩) := by
  induction n with
  | zero => intro c _; simp [squeezeBytes, squeezeSpec]
  | succ n ih =>
    intro c hc
    have hnext := toNat_add_one_of_lt (refill_pos_lt h0 hc)
    have hle : ((refill rb c).pos + 1).toNat ≤ rb.toNat := by
      rw [hnext]
      exact refill_pos_lt h0 hc
    have hrest := ih ⟨(refill rb c).sponge, (refill rb c).pos + 1⟩ hle
    simp only [hnext] at hrest
    simp only [squeezeBytes, squeezeByte_of_le h0 hr hc, hrest, squeezeSpec, refill_eq_spec]

/-- While the block lasts its bytes are given in order, and S is not permuted, not even when the block is exhausted
(R202). -/
theorem squeezeSpec_inside {rb : Nat} (S : Sponge) (n : Nat) :
    ∀ p : Nat, p + n ≤ rb →
      squeezeSpec rb n (S, p) = ((List.range n).map fun i => S[p + i]?.getD 0, (S, p + n)) := by
  induction n with
  | zero => exact fun p _ => rfl
  | succ n ih =>
    intro p hp
    have hopen : p ≠ rb := by omega
    rw [squeezeSpec]
    simp only [if_neg hopen, ih (p + 1) (by omega), List.range_succ_eq_map, List.map_cons, List.map_map,
      Nat.add_right_comm p 1, Nat.add_assoc]
    rfl

/-- The bytes of a block inside the state array, read one by one. -/
theorem getElem?_blockBytes (S : Sponge) {p n i : Nat} (hp : p + n ≤ 200) (hi : i < n) :
    ((List.range n).map fun i => S[p + i]?.getD 0)[i]? = S[p + i]? := by
  have h200 : p + i < 200 := by omega
  simp [hi, Vector.getElem?_eq_getElem h200]

/-- An exhausted block is permuted before the next byte is read. -/
theorem squeezeSpec_exhausted {rb : Nat} (h0 : 0 < rb) (S : Sponge) {n : Nat} (hn : 1 ≤ n) :
    squeezeSpec rb n (S, rb) = squeezeSpec rb n (keccakF S, 0) := by
  obtain ⟨n, rfl⟩ := Nat.exists_eq_add_of_le' hn
  simp only [squeezeSpec, if_true, if_neg (Nat.ne_of_lt h0)]

/-- SqueezeBytes(m) and then SqueezeBytes(n) give what SqueezeBytes(m + n) gives, and leave the same cursor (R200). -/
theorem squeezeBytes_join {rb : BitVec 8} {m n : Nat} {c c1 c2 c3 : Cursor} {o1 o2 o3 : List Byte}
    (h1 : squeezeBytes rb m c = .ok (o1, c1)) (h2 : squeezeBytes rb n c1 = .ok (o2, c2))
    (h3 : squeezeBytes rb (m + n) c = .ok (o3, c3)) : o3 = o1 ++ o2 ∧ c3 = c2 := by
  simp only [squeezeBytes_add, h1, h2] at h3
  cases h3
  exact ⟨rfl, rfl⟩

/-- From the same cursor a longer output begins with every shorter one (R206). -/
theorem isPrefix_squeezeBytes {rb : BitVec 8} {m n : Nat} {c c1 c2 : Cursor} {o1 o2 : List Byte} (hmn : m ≤ n)
    (h1 : squeezeBytes rb m c = .ok (o1, c1)) (h2 : squeezeBytes rb n c = .ok (o2, c2)) : o1 <+: o2 := by
  obtain ⟨k, rfl⟩ := Nat.exists_eq_add_of_le hmn
  simp only [squeezeBytes_add, h1] at h2
  split at h2
  · cases h2
  · cases h2
    exact List.prefix_append _ _

/-! ## The mask (R203) -/

/-- The mask changes the last byte, as R203 writes it. -/
theorem maskOutput_eq_maskSpec (h : Nat) (o : List Byte) : maskOutput h o = maskSpec h o := by
  unfold maskOutput maskSpec
  refine List.ext_getElem? fun i => ?_
  rw [List.getElem?_mapIdx]
  by_cases hwhole : h % 8 = 0
  · simp [hwhole]
  · rw [if_neg hwhole, List.getElem?_modify]
    by_cases hi : i < o.length
    · have hlast : o.length - 1 = i ↔ i + 1 = o.length := by omega
      simp [List.getElem?_eq_getElem hi, hlast, hwhole]
    · simp [hi]

/-- A whole-byte output is not masked. -/
theorem maskOutput_of_whole {h : Nat} (hh : h % 8 = 0) (o : List Byte) : maskOutput h o = o := by
  rw [maskOutput, if_pos hh]

/-- The mask leaves the whole bytes of the output. -/
theorem take_maskOutput {h k : Nat} {o : List Byte} (hk : k ≤ h / 8) (ho : o.length = ceilDiv h 8) :
    (maskOutput h o).take k = o.take k := by
  rw [ceilDiv] at ho
  unfold maskOutput
  split_ifs with hwhole
  · rfl
  · refine List.ext_getElem? fun i => ?_
    rw [List.getElem?_take, List.getElem?_take]
    split_ifs with hi
    · have hlast : o.length - 1 ≠ i := by omega
      simp [hlast]
    · rfl

/-! ## FINALIZE and SQUEEZE answer (R183, R205) -/

/-- A FINALIZE of a state ready to absorb completes and squeezes the state after the padded tail; for an XOF with a
whole-byte length it leaves the state ready to squeeze. -/
theorem exec_finalize_absorbing (t : BitVec 3) (v : Byte) {s : State} (h : s.Absorbing) :
    ∃ u o, exec (.finalize t v) s = .next u ∧ u.rateBytes = s.rateBytes ∧
      squeezeBytes s.rateBytes (ceilDiv s.hashSize.toNat 8) ⟨padSpec s t v, 0⟩ = .ok (o, ⟨u.sponge, u.sqzPos⟩) ∧
      o.length = ceilDiv s.hashSize.toNat 8 ∧ u.out = maskOutput s.hashSize.toNat o ∧
      (s.xof = 1 → s.hashSize.toNat % 8 = 0 → u.Squeezing) := by
  have hpad := Padding.padAndPermute_eq_padSpec t v (Padding.rateBits_pos h) (Padding.rateBits_le h)
  obtain ⟨hp, hparams, -⟩ := h
  have hrate : s.RateLegal := hparams.left
  obtain ⟨o, c, hc, hlen, hle⟩ := squeezeBytes_ok (ArchState.rateBytes_pos_of_rateLegal hrate)
    (ArchState.rateBytes_le_of_rateLegal hrate) (ceilDiv s.hashSize.toNat 8) ⟨padSpec s t v, 0⟩ (Nat.zero_le _)
  exact ⟨_, o, ArchState.exec_finalize_of_ok hp hpad hc, rfl, hc, hlen, rfl,
    fun hxof hwhole => ⟨ArchState.finalPhase_eq_squeezing.mpr ⟨hxof, hwhole⟩, hparams, hle, hxof, hwhole⟩⟩

/-- A SQUEEZE of a state ready to squeeze completes, runs SqueezeBytes and leaves the state ready to squeeze. -/
theorem exec_squeeze_squeezing (n : BitVec 16) {s : State} (h : s.Squeezing) :
    ∃ u, exec (.squeeze n) s = .next u ∧ u.Squeezing ∧ u.rateBytes = s.rateBytes ∧
      squeezeBytes s.rateBytes n.toNat ⟨s.sponge, s.sqzPos⟩ = .ok (u.out, ⟨u.sponge, u.sqzPos⟩) := by
  obtain ⟨hp, hparams, hpos, hxof, hwhole⟩ := h
  have hrate : s.RateLegal := hparams.left
  obtain ⟨o, c, hc, -, hle⟩ := squeezeBytes_ok (ArchState.rateBytes_pos_of_rateLegal hrate)
    (ArchState.rateBytes_le_of_rateLegal hrate) n.toNat ⟨s.sponge, s.sqzPos⟩ hpos
  exact ⟨_, ArchState.exec_squeeze_of_ok hp hc, ⟨hp, hparams, hle, hxof, hwhole⟩, rfl, hc⟩

/-- A SQUEEZE whose bytes stand in the block of S from offset p on gives those bytes, and leaves S and the offset after
the last of them (R201, R202). -/
theorem exec_squeeze_block {n : BitVec 16} {s : State} (h : s.Squeezing) {S : Sponge} {p : Nat}
    (hspec : squeezeSpec s.rateBytes.toNat n.toNat (s.sponge, s.sqzPos.toNat) =
      squeezeSpec s.rateBytes.toNat n.toNat (S, p)) (hin : p + n.toNat ≤ s.rateBytes.toNat) :
    ∃ u, exec (.squeeze n) s = .next u ∧ u.sponge = S ∧ u.sqzPos.toNat = p + n.toNat ∧ u.out.length = n.toNat ∧
      ∀ i < n.toNat, u.out[i]? = S[p + i]? := by
  obtain ⟨hp, ⟨hrate, -⟩, hpos, -⟩ := h
  have hr := ArchState.rateBytes_le_of_rateLegal hrate
  have hc := squeezeBytes_eq_squeezeSpec (ArchState.rateBytes_pos_of_rateLegal hrate) hr n.toNat
    ⟨s.sponge, s.sqzPos⟩ hpos
  simp only [hspec, squeezeSpec_inside S n.toNat p hin] at hc
  refine ⟨_, ArchState.exec_squeeze_of_ok hp hc, rfl, ?_, by simp, fun i hi => getElem?_blockBytes S (by omega) hi⟩
  rw [complete_sqzPos, BitVec.toNat_ofNat, Nat.mod_eq_of_lt (by omega)]

/-- The padded tail does not depend on the output length (R186). -/
theorem padSpec_withHashSize (s : State) (b : BitVec 20) (t : BitVec 3) (v : Byte) :
    padSpec { s with hashSize := b } t v = padSpec s t v := rfl

/-- FINALIZE of one absorbed message at an output length of b bits gives the first bits of one same stream (R206). -/
theorem exec_finalize_withHashSize (t : BitVec 3) (v : Byte) {s : State} (h : s.Absorbing) {b : Nat} (hpos : 1 ≤ b)
    (hmax : b ≤ 8 * Config.maxOutBytes) :
    ∃ u o, exec (.finalize t v) { s with hashSize := BitVec.ofNat 20 b } = .next u ∧ u.rateBytes = s.rateBytes ∧
      squeezeBytes s.rateBytes (ceilDiv b 8) ⟨padSpec s t v, 0⟩ = .ok (o, ⟨u.sponge, u.sqzPos⟩) ∧
      o.length = ceilDiv b 8 ∧ u.out = maskOutput b o ∧ (s.xof = 1 → b % 8 = 0 → u.Squeezing) := by
  have hb : (BitVec.ofNat 20 b).toNat = b := by
    rw [Config.maxOutBytes] at hmax
    rw [BitVec.toNat_ofNat, Nat.mod_eq_of_lt (by omega)]
  obtain ⟨hp, ⟨hrate, hdom, -, hvar⟩, hin⟩ := h
  have hlegal : State.Absorbing { s with hashSize := BitVec.ofNat 20 b } :=
    ⟨hp, ⟨hrate, hdom, ⟨hb.symm ▸ hpos, hb.symm ▸ hmax⟩, hvar⟩, hin⟩
  have hx := exec_finalize_absorbing t v hlegal
  simp only [hb, padSpec_withHashSize] at hx
  exact hx

end Sys2Proof.Squeeze

/-- Settles O31: the padded tail is `padSpec`, the loop is `squeezeSpec` and the mask is `maskSpec`. -/
theorem finalizeResult : Obligations.FinalizeResult := by
  intro t v s h
  have hpad := Padding.padAndPermute_eq_padSpec t v (Padding.rateBits_pos h) (Padding.rateBits_le h)
  obtain ⟨hp, ⟨hrate, -⟩, -⟩ := h
  have hc := Squeeze.squeezeBytes_eq_squeezeSpec (ArchState.rateBytes_pos_of_rateLegal hrate)
    (ArchState.rateBytes_le_of_rateLegal hrate) (ceilDiv s.hashSize.toNat 8) ⟨padSpec s t v, 0⟩ (Nat.zero_le _)
  rw [ArchState.exec_finalize_of_ok hp hpad hc, Squeeze.maskOutput_eq_maskSpec]
  rfl

/-- Settles O33: the mask keeps the first HASH_SIZE bits (`BitSponge.getLsbD_maskOutput`), and the cleared bits of the
last byte lie past them. -/
theorem outputIsMasked : Obligations.OutputIsMasked := by
  intro t v s h
  obtain ⟨u, o, hx, -, -, hlen, hout, -⟩ := Squeeze.exec_finalize_absorbing t v h
  refine ⟨u, hx, by rw [hout, BitSponge.length_maskOutput, hlen]; rfl, fun j hj hpart hhigh => ?_⟩
  have hn : o.length = (s.hashSize.toNat + 7) / 8 := hlen
  have hpast : ¬8 * (o.length - 1) + j < s.hashSize.toNat := by omega
  rw [hout, BitSponge.length_maskOutput, BitSponge.getLsbD_maskOutput hlen (by omega) hj, decide_eq_false hpast,
    Bool.false_and]

/-- Settles O36, by `Squeeze.squeezeBytes_eq_squeezeSpec` from the cursor (S, SQZ_POS). -/
theorem squeezeResult : Obligations.SqueezeResult := by
  rintro n s ⟨hp, ⟨hrate, -⟩, hpos, -⟩
  have hc := Squeeze.squeezeBytes_eq_squeezeSpec (ArchState.rateBytes_pos_of_rateLegal hrate)
    (ArchState.rateBytes_le_of_rateLegal hrate) n.toNat ⟨s.sponge, s.sqzPos⟩ hpos
  rw [ArchState.exec_squeeze_of_ok hp hc, ← BitVec.ofNat_toNat]
  rfl

/-- Settles O37, by `Squeeze.exec_squeeze_block`: the bytes stand in the block of S from SQZ_POS on, or, when the block
is exhausted, in that of the permuted state from 0 on. -/
theorem squeezeReadsTheBlock : Obligations.SqueezeReadsTheBlock := by
  intro n s h
  refine ⟨Squeeze.exec_squeeze_block h rfl, fun hfull hpos hle => ?_⟩
  have hspec : squeezeSpec s.rateBytes.toNat n.toNat (s.sponge, s.sqzPos.toNat) =
      squeezeSpec s.rateBytes.toNat n.toNat (keccakF s.sponge, 0) := by
    rw [hfull]
    exact Squeeze.squeezeSpec_exhausted (by omega) s.sponge hpos
  simpa only [Nat.zero_add] using Squeeze.exec_squeeze_block h hspec (by omega)

/-- Settles O38: SqueezeBytes(m) and then SqueezeBytes(n) are SqueezeBytes(m + n) (`Squeeze.squeezeBytes_join`). -/
theorem squeezeContinuesTheStream : Obligations.SqueezeContinuesTheStream := by
  intro m n k s h hk
  obtain ⟨s1, hx1, hs1, hrate, h1⟩ := Squeeze.exec_squeeze_squeezing m h
  obtain ⟨s2, hx2, -, -, h2⟩ := Squeeze.exec_squeeze_squeezing n hs1
  obtain ⟨s3, hx3, -, -, h3⟩ := Squeeze.exec_squeeze_squeezing k h
  rw [hrate] at h2
  rw [← hk] at h3
  obtain ⟨hout, hcursor⟩ := Squeeze.squeezeBytes_join h1 h2 h3
  injection hcursor with hS hpos
  exact ⟨s1, s2, s3, hx1, hx2, hx3, hout, hS, hpos⟩

/-- Settles O39: the padded tail does not depend on HASH_SIZE, so both outputs are cut from one stream; the mask leaves
whole bytes as they are. -/
theorem xofOutputsArePrefixes : Obligations.XofOutputsArePrefixes := by
  intro t v s h hxof
  refine ⟨fun n1 n2 hpos hlt hmax => ?_, fun h1 h2 hpos hlt hmax => ?_⟩
  · obtain ⟨u1, o1, hx1, hrate, hc1, -, hout1, hready⟩ :=
      Squeeze.exec_finalize_withHashSize t v h (b := 8 * n1) (by omega) (by omega)
    obtain ⟨u2, o2, hx2, -, hc2, -, hout2, -⟩ :=
      Squeeze.exec_finalize_withHashSize t v h (b := 8 * n2) (by omega) (by omega)
    obtain ⟨u3, hx3, -, -, hc3⟩ := Squeeze.exec_squeeze_squeezing (BitVec.ofNat 16 (n2 - n1)) (hready hxof (by omega))
    have hrest : ceilDiv (8 * n1) 8 + (BitVec.ofNat 16 (n2 - n1)).toNat = ceilDiv (8 * n2) 8 := by
      rw [Config.maxOutBytes] at hmax
      rw [BitVec.toNat_ofNat, ceilDiv, ceilDiv]
      omega
    rw [hrate] at hc3
    rw [← hrest] at hc2
    obtain ⟨hjoin, -⟩ := Squeeze.squeezeBytes_join hc1 hc3 hc2
    refine ⟨u1, u2, u3, hx1, hx2, hx3, ?_⟩
    rw [hout1, hout2, Squeeze.maskOutput_of_whole (by omega), Squeeze.maskOutput_of_whole (by omega), hjoin]
  · obtain ⟨u1, o1, hx1, -, hc1, hlen1, hout1, -⟩ := Squeeze.exec_finalize_withHashSize t v h hpos (by omega)
    obtain ⟨u2, o2, hx2, -, hc2, hlen2, hout2, -⟩ := Squeeze.exec_finalize_withHashSize t v h (b := h2) (by omega) hmax
    have hblocks : ceilDiv h1 8 ≤ ceilDiv h2 8 := by
      rw [ceilDiv, ceilDiv]
      omega
    have hprefix := Squeeze.isPrefix_squeezeBytes hblocks hc1 hc2
    refine ⟨u1, u2, hx1, hx2, ?_⟩
    calc u1.out.take (h1 / 8) = o1.take (h1 / 8) := by rw [hout1, Squeeze.take_maskOutput (Nat.le_refl _) hlen1]
      _ <+: o2.take (h1 / 8) := hprefix.take _
      _ = u2.out.take (h1 / 8) := by rw [hout2, Squeeze.take_maskOutput (by omega) hlen2]
      _ <+: u2.out := List.take_prefix _ _
end

section
/-! PROOF. The statements of 60_exceptions.md: which words and payloads are refused (R221, R226), the code each command
reports (R223 to R225, R227), what a failure leaves (R222) and what comes after it (R229). -/

open Sys2Proof
open Sys2Proof.Machine
open Sys2Proof.Claims

namespace Sys2Proof.Exceptions

/-! ## Illegal words (R221) -/

/-- The reserved fields of each format, as (high bit, low bit) (R82 to R88). -/
def reservedFields : Opcode → List (Nat × Nat)
  | .cfgVariant => [(63, 12)]
  | .cfgExplicit => [(19, 19), (23, 22), (63, 44)]
  | .setOutlen => [(63, 28)]
  | .init => [(63, 8)]
  | .absorb => [(63, 24)]
  | .finalize => [(15, 11), (63, 24)]
  | .squeeze => [(63, 24)]
  | .permute => [(63, 8)]

/-- Every bit of RESERVED_MASK lies in a reserved field of the format. -/
theorem exists_reservedField (op : Opcode) :
    ∀ j < 64, op.reservedMask.getLsbD j = true → ∃ f ∈ reservedFields op, f.2 ≤ j ∧ j ≤ f.1 := by
  cases op <;> decide

theorem field_eq_zero_of_not_reservedBitSet {cmd : Word} {op : Opcode} (h : ¬reservedBitSet cmd op.code.toNat) :
    ∀ f ∈ reservedFields op, field cmd f.1 f.2 = 0#_ := by
  cases op <;> simpa [reservedBitSet, reservedFields, Opcode.code] using h

/-- A word whose reserved fields are all 0 passes the mask check of R90. -/
theorem and_reservedMask_of_not_reservedBitSet {cmd : Word} {op : Opcode}
    (h : ¬reservedBitSet cmd op.code.toNat) : cmd &&& op.reservedMask = 0 := by
  apply BitVec.eq_of_getLsbD_eq
  intro j hj
  rw [BitVec.getLsbD_and]
  cases hmask : op.reservedMask.getLsbD j with
  | false => simp
  | true =>
    obtain ⟨f, hf, hlo, hhi⟩ := exists_reservedField op j hj hmask
    have hbit := congrArg (fun x => x.getLsbD (j - f.2)) (field_eq_zero_of_not_reservedBitSet h f hf)
    have hin : j - f.2 < f.1 - f.2 + 1 := by omega
    rw [getLsbD_field, decide_eq_true hin, Bool.true_and, Nat.add_sub_cancel' hlo, BitVec.getLsbD_zero] at hbit
    simp [hbit]

/-- The codes 1 to 8 are those of the table's rows (R81). -/
theorem exists_opcode_code {c : BitVec 8} : (∃ op : Opcode, c = op.code) ↔ c.toNat ≠ 0 ∧ c.toNat < 9 := by
  simp only [← Encoding.opcodeOf_eq_some_iff, ← Option.isSome_iff_exists]
  revert c
  decide

/-- A word that is none of the cases of R221 matches a row of the table. -/
theorem exists_row_of_not_illegalWord {cmd : Word} (h : ¬illegalWord cmd) :
    ∃ op : Opcode, cmd &&& op.mask = op.code.setWidth 64 := by
  simp only [illegalWord, not_or] at h
  obtain ⟨hzero, hnine, hreserved, -, -⟩ := h
  obtain ⟨op, hop⟩ := exists_opcode_code.mpr ⟨hzero, by omega⟩
  rw [hop] at hreserved
  exact ⟨op, Encoding.rowMatch_iff.mpr
    ⟨Encoding.opcodeOf_eq_some_iff.mpr hop, and_reservedMask_of_not_reservedBitSet hreserved⟩⟩

/-- A word of a row is illegal exactly if it fails a value check: a word that passes them is some command's. -/
theorem illegalWord_iff_of_row {cmd : Word} {op : Opcode} (h : cmd &&& op.mask = op.code.setWidth 64) :
    illegalWord cmd ↔ ¬valueChecks op cmd := by
  constructor
  · intro hill hvalues
    obtain ⟨i, rfl, hops⟩ := Encoding.exists_holdsOperands_iff.mpr hvalues
    exact Absorb.not_illegalWord_of_decode (Encoding.decode_eq_command_iff.mpr ⟨h, hops, rfl⟩) hill
  · intro hvalues
    rw [illegalWord, Absorb.opcode_of_row h]
    contrapose! hvalues
    obtain ⟨-, -, -, hvariant, hdom⟩ := hvalues
    constructor
    · rintro rfl
      exact Nat.le_of_lt_succ (hvariant rfl)
    · rintro rfl
      exact Nat.le_of_lt_succ (hdom rfl)

/-! ## What Decode returns (R90) -/

/-- Decode reads the fields of the row that the word matches, and a word of no row is illegal. -/
theorem decode_row (cmd : Word) (p : List Byte) :
    (∃ op : Opcode, cmd &&& op.mask = op.code.setWidth 64 ∧ decode cmd p = decodeFields op cmd p) ∨
      ((∀ op : Opcode, cmd &&& op.mask ≠ op.code.setWidth 64) ∧ decode cmd p = .illegal) := by
  simp only [ne_eq, Encoding.rowMatch_iff, decode]
  cases opcodeOf (field cmd 7 0) with
  | none => exact .inr ⟨nofun, rfl⟩
  | some op =>
    by_cases hreserved : cmd &&& op.reservedMask = 0
    · exact .inl ⟨op, ⟨rfl, hreserved⟩, if_pos hreserved⟩
    · refine .inr ⟨?_, if_neg hreserved⟩
      rintro op' ⟨hop, hreserved'⟩
      cases hop
      exact hreserved hreserved'

theorem variantOf_eq_none_iff {c : BitVec 4} : variantOf c = none ↔ ¬c.toNat ≤ 5 := by
  rw [← Encoding.exists_variant_code]
  simp only [← Encoding.variantOf_eq_some_iff, ← Option.isSome_iff_exists, Option.not_isSome_iff_eq_none]

theorem domainOf_eq_none_iff {c : BitVec 2} : domainOf c = none ↔ ¬c.toNat ≤ 1 := by
  rw [← Encoding.exists_domain_code]
  simp only [← Encoding.domainOf_eq_some_iff, ← Option.isSome_iff_exists, Option.not_isSome_iff_eq_none]

/-- Past the reserved bits only the value checks make a word illegal. -/
theorem decodeFields_eq_illegal_iff {op : Opcode} {cmd : Word} {p : List Byte} :
    decodeFields op cmd p = .illegal ↔ ¬valueChecks op cmd := by
  cases op with
  | cfgVariant =>
    have hchecks : valueChecks .cfgVariant cmd ↔ (field cmd 11 8).toNat ≤ 5 := by simp [valueChecks]
    rw [hchecks, ← variantOf_eq_none_iff, decodeFields]
    cases variantOf (field cmd 11 8) <;> simp [withoutPayload_ne_illegal]
  | cfgExplicit =>
    have hchecks : valueChecks .cfgExplicit cmd ↔ (field cmd 21 20).toNat ≤ 1 := by simp [valueChecks]
    rw [hchecks, ← domainOf_eq_none_iff, decodeFields]
    cases domainOf (field cmd 21 20) <;> simp [withoutPayload_ne_illegal]
  | absorb => simp only [decodeFields]; split <;> simp [valueChecks]
  | _ => simp [decodeFields, withoutPayload_ne_illegal, valueChecks]

/-- The payload check of each row (R90). -/
theorem wrongLength_of_decodeFields {op : Opcode} {cmd : Word} {p : List Byte} (h : decodeFields op cmd p = .length) :
    (op = .absorb ∧ p.length ≠ (field cmd 23 8).toNat) ∨ (op ≠ .absorb ∧ p ≠ []) := by
  cases op with
  | cfgVariant =>
    simp only [decodeFields] at h
    split at h
    · cases h
    · exact .inr ⟨nofun, withoutPayload_eq_length.mp h⟩
  | cfgExplicit =>
    simp only [decodeFields] at h
    split at h
    · cases h
    · exact .inr ⟨nofun, withoutPayload_eq_length.mp h⟩
  | absorb =>
    simp only [decodeFields] at h
    split at h
    · cases h
    · next hlen => exact .inl ⟨rfl, fun heq => hlen ((hasLength_iff _ _).mpr heq)⟩
  | _ => exact .inr ⟨nofun, withoutPayload_eq_length.mp h⟩

theorem decode_eq_illegal_iff {cmd : Word} {p : List Byte} : decode cmd p = .illegal ↔ illegalWord cmd := by
  obtain ⟨op, hrow, hdec⟩ | ⟨hnone, hdec⟩ := decode_row cmd p
  · rw [hdec, decodeFields_eq_illegal_iff, illegalWord_iff_of_row hrow]
  · refine iff_of_true hdec (of_not_not fun hlegal => ?_)
    obtain ⟨op, hrow⟩ := exists_row_of_not_illegalWord hlegal
    exact hnone op hrow

theorem wrongLength_of_decode_length {cmd : Word} {p : List Byte} (h : decode cmd p = .length) : wrongLength cmd p := by
  obtain ⟨op, hrow, hdec⟩ | ⟨-, hdec⟩ := decode_row cmd p
  · obtain ⟨-, -, -, -, hfive⟩ := Absorb.opcode_code_range op
    simpa only [wrongLength, Absorb.opcode_of_row hrow, ne_eq, hfive] using wrongLength_of_decodeFields (hdec ▸ h)
  · rw [hdec] at h
    cases h

theorem decode_eq_length_iff {cmd : Word} {p : List Byte} :
    decode cmd p = .length ↔ ¬illegalWord cmd ∧ wrongLength cmd p := by
  rw [← decode_eq_illegal_iff (p := p)]
  constructor
  · intro h
    exact ⟨by simp [h], wrongLength_of_decode_length h⟩
  · rintro ⟨hlegal, hlen⟩
    cases hdec : decode cmd p with
    | illegal => exact absurd hdec hlegal
    | length => rfl
    | command i => exact absurd hlen (Absorb.not_wrongLength_of_decode hdec)

/-! ## The commands that fail (R222 to R225) -/

theorem failClosed_eq_afterFailure (e : ErrCode) (s : State) : failClosed e s = afterFailure e.code.toNat s := by
  cases e <;> rfl

theorem exec_of_misuse {i : Instr} {s : State} (h : misuse i s.phase) : exec i s = .next (failClosed .misuse s) := by
  cases i with
  | cfgVariant v => exact h.elim
  | cfgExplicit cap d b => exact h.elim
  | setOutlen b => exact if_pos (Absorb.misuse_setOutlen_iff.mp h)
  | init => exact if_pos h
  | absorb p => exact ArchState.exec_absorb_of_ne h
  | finalize tb v => exact ArchState.exec_finalize_of_ne h
  | squeeze n => exact ArchState.exec_squeeze_of_ne h
  | permute => exact h.elim

theorem exec_setOutlen_of_xof_eq_zero {b : BitVec 20} {s : State} (hphase : setOutlenPhase s.phase = true)
    (hxof : s.xof = 0) : exec (.setOutlen b) s = .next (failClosed .notXof s) := by
  simp [exec, execSetOutlen, failed, hphase, hxof]

theorem exec_setOutlen_of_rejected {b : BitVec 20} {s : State} (hphase : setOutlenPhase s.phase = true)
    (hxof : s.xof ≠ 0) (hlen : outputLengthAccepted b = false) :
    exec (.setOutlen b) s = .next (failClosed .config s) := by
  simp only [exec, execSetOutlen, failed, hphase, hlen, if_neg hxof, Bool.true_eq_false, if_false, if_true]

theorem exec_cfgExplicit_of_rejected {cap : BitVec 11} {h : BitVec 20}
    (hbad : capacityAccepted cap = false ∨ outputLengthAccepted h = false) (d : Domain) (s : State) :
    exec (.cfgExplicit cap d h) s = .next (failClosed .config s) := by
  simp only [exec, execCfgExplicit, failed]
  obtain hcap | hlen := hbad
  · rw [if_pos hcap]
  · rw [if_pos hlen, ite_self]

/-- The lengths of R224 are those that SET_OUTLEN and CFG_EXPLICIT do not accept. -/
theorem outputLengthAccepted_eq_false_iff {b : BitVec 20} :
    outputLengthAccepted b = false ↔ b.toNat = 0 ∨ 8 * Config.maxOutBytes < b.toNat := by
  rw [← Bool.not_eq_true, outputLengthAccepted_iff]
  omega

theorem badConfig_setOutlen_iff {b : BitVec 20} : badConfig (.setOutlen b) ↔ outputLengthAccepted b = false :=
  outputLengthAccepted_eq_false_iff.symm

theorem badConfig_cfgExplicit_iff {cap : BitVec 11} {d : Domain} {h : BitVec 20} :
    badConfig (.cfgExplicit cap d h) ↔ capacityAccepted cap = false ∨ outputLengthAccepted h = false := by
  rw [badConfig, outputLengthAccepted_eq_false_iff, ← Bool.not_eq_true, capacityAccepted_iff]
  omega

theorem exec_of_badConfig {i : Instr} {s : State} (hbad : badConfig i) (hphase : ¬misuse i s.phase)
    (hxof : ¬notXof s i) : exec i s = .next (failClosed .config s) := by
  cases i with
  | cfgExplicit cap d h => exact exec_cfgExplicit_of_rejected (badConfig_cfgExplicit_iff.mp hbad) d s
  | setOutlen b =>
    rw [Absorb.misuse_setOutlen_iff, Bool.not_eq_false] at hphase
    exact exec_setOutlen_of_rejected hphase hxof (badConfig_setOutlen_iff.mp hbad)
  | _ => exact hbad.elim

/-! ## The code a command reports (R227) -/

/-- A command that answers reports its first cause, and 0 if there is none. -/
theorem exec_reports {i : Instr} {s t : State} (hx : exec i s = .next t) : reports i s t.lastErr := by
  have hmisuse (h : misuse i s.phase) : reports i s 4 := .inl ⟨h, rfl⟩
  have hok (hphase : ¬misuse i s.phase) (hxof : ¬notXof s i) (hcfg : ¬badConfig i) : reports i s 0 :=
    .inr (.inr (.inr ⟨hphase, hxof, hcfg, rfl⟩))
  cases i with
  | cfgVariant v => rw [exec_cfgVariant_next hx]; exact hok id id id
  | cfgExplicit cap d h =>
    obtain ⟨hcap, hlen, rfl⟩ | ⟨hbad, rfl⟩ := exec_cfgExplicit_next hx
    · exact hok id id (by simp [badConfig_cfgExplicit_iff, hcap, hlen])
    · exact .inr (.inr (.inl ⟨id, id, badConfig_cfgExplicit_iff.mpr hbad, rfl⟩))
  | setOutlen b =>
    have hlegal (h : setOutlenPhase s.phase = true) : ¬misuse (.setOutlen b) s.phase := by
      simp [Absorb.misuse_setOutlen_iff, h]
    obtain ⟨hp, hxof, hlen, rfl⟩ | ⟨hp, rfl⟩ | ⟨hp, hxof, rfl⟩ | ⟨hp, hxof, hlen, rfl⟩ := exec_setOutlen_next hx
    · exact hok (hlegal hp) hxof (by simp [badConfig_setOutlen_iff, hlen])
    · exact hmisuse (Absorb.misuse_setOutlen_iff.mpr hp)
    · exact .inr (.inl ⟨hlegal hp, hxof, rfl⟩)
    · exact .inr (.inr (.inl ⟨hlegal hp, hxof, badConfig_setOutlen_iff.mpr hlen, rfl⟩))
  | init =>
    obtain ⟨hp, rfl⟩ | ⟨hp, rfl⟩ := exec_init_next hx
    · exact hok hp id id
    · exact hmisuse hp
  | absorb p =>
    obtain ⟨hp, c, -, rfl⟩ | ⟨hp, rfl⟩ := exec_absorb_next hx
    · exact hok (not_not.mpr hp) id id
    · exact hmisuse hp
  | finalize tb v =>
    obtain ⟨hp, S, o, c, -, -, rfl⟩ | ⟨hp, rfl⟩ := exec_finalize_next hx
    · exact hok (not_not.mpr hp) id id
    · exact hmisuse hp
  | squeeze n =>
    obtain ⟨hp, o, c, -, rfl⟩ | ⟨hp, rfl⟩ := exec_squeeze_next hx
    · exact hok (not_not.mpr hp) id id
    · exact hmisuse hp
  | permute => rw [exec_permute_next hx]; exact hok id id id

/-- Which cause each code of a command stands for. -/
theorem cause_of_reports {i : Instr} {s : State} {code : BitVec 4} (h : reports i s code) :
    (code = 4 → misuse i s.phase) ∧ (code = 3 → notXof s i) ∧ (code = 2 → badConfig i) ∧ code ≠ 1 ∧ code ≠ 5 := by
  obtain ⟨hm, rfl⟩ | ⟨-, hx, rfl⟩ | ⟨-, -, hb, rfl⟩ | ⟨-, -, -, rfl⟩ := h
  · simp [hm]
  · simp [hx]
  · simp [hb]
  · simp

/-- How a transaction ends, by what its word and payload decode to. -/
theorem runCommand_next_decoded {cmd : Word} {p : List Byte} {s t : State} (h : runCommand cmd p s = .next t) :
    (decode cmd p = .illegal ∧ t = failClosed .illegal s) ∨ (decode cmd p = .length ∧ t = failClosed .length s) ∨
      ∃ i, decode cmd p = .command i ∧ exec i s = .next t := by
  cases hdec : decode cmd p with
  | illegal => rw [runCommand_illegal s hdec] at h; cases h; exact .inl ⟨rfl, rfl⟩
  | length => rw [runCommand_length s hdec] at h; cases h; exact .inr (.inl ⟨rfl, rfl⟩)
  | command i => exact .inr (.inr ⟨i, rfl, by rwa [runCommand_command s hdec] at h⟩)

/-- The codes 1 and 5 come from Decode alone. -/
theorem lastErr_runCommand {cmd : Word} {p : List Byte} {s t : State} (h : runCommand cmd p s = .next t) :
    (t.lastErr = 1 ↔ decode cmd p = .illegal) ∧ (t.lastErr = 5 ↔ decode cmd p = .length) := by
  obtain ⟨hdec, rfl⟩ | ⟨hdec, rfl⟩ | ⟨i, hdec, hx⟩ := runCommand_next_decoded h
  · simp [hdec, ErrCode.code]
  · simp [hdec, ErrCode.code]
  · obtain ⟨-, -, -, hone, hfive⟩ := cause_of_reports (exec_reports hx)
    exact ⟨iff_of_false hone (by simp [hdec]), iff_of_false hfive (by simp [hdec])⟩

/-! ## After a failure (R229) -/

theorem errBit_eq (e : ErrCode) : BitVec.ofNat 8 (2 ^ e.code.toNat) = 1#8 <<< e.code.toNat := by
  cases e <;> rfl

/-- Of two failures the second leaves its own code, and ERR_SEEN has the bits of both. -/
theorem failClosed_failClosed (e e' : ErrCode) (s : State) :
    failClosed e' (failClosed e s) =
      { failClosed e' s with errSeen := (failClosed e' s).errSeen ||| 1#8 <<< e.code.toNat } := by
  simp only [failClosed, BitVec.or_assoc, BitVec.or_comm (1#8 <<< e.code.toNat)]

/-- A command reads none of the registers a failure writes: each check and each loop goes as it would have gone. -/
theorem exec_failClosed {i : Instr} {s t : State} (e : ErrCode) (hx : exec i s = .next t) :
    exec i (failClosed e s) = .next { t with errSeen := t.errSeen ||| 1#8 <<< e.code.toNat } := by
  have hfails {e' : ErrCode} (h : exec i (failClosed e s) = .next (failClosed e' (failClosed e s))) :
      exec i (failClosed e s) =
        .next { failClosed e' s with errSeen := (failClosed e' s).errSeen ||| 1#8 <<< e.code.toNat } := by
    rw [h, failClosed_failClosed]
  cases i with
  | cfgVariant v => rw [exec_cfgVariant_next hx]; rfl
  | cfgExplicit cap d h =>
    obtain ⟨hcap, hlen, rfl⟩ | ⟨hbad, rfl⟩ := exec_cfgExplicit_next hx
    · exact Configuration.exec_cfgExplicit_of_accepted hcap hlen d _
    · exact hfails (exec_cfgExplicit_of_rejected hbad d _)
  | setOutlen b =>
    obtain ⟨hp, hxof, hlen, rfl⟩ | ⟨hp, rfl⟩ | ⟨hp, hxof, rfl⟩ | ⟨hp, hxof, hlen, rfl⟩ := exec_setOutlen_next hx
    · exact Configuration.exec_setOutlen_of_accepted (s := failClosed e s) hp hxof hlen
    · exact hfails (exec_of_misuse (Absorb.misuse_setOutlen_iff.mpr hp))
    · exact hfails (exec_setOutlen_of_xof_eq_zero hp hxof)
    · exact hfails (exec_setOutlen_of_rejected hp hxof hlen)
  | init =>
    obtain ⟨hp, rfl⟩ | ⟨hp, rfl⟩ := exec_init_next hx
    · exact Absorb.exec_init_of_ne (s := failClosed e s) hp
    · exact hfails (exec_of_misuse hp)
  | absorb p =>
    obtain ⟨hp, c, hc, rfl⟩ | ⟨hp, rfl⟩ := exec_absorb_next hx
    · exact ArchState.exec_absorb_of_ok (s := failClosed e s) hp hc
    · exact hfails (exec_of_misuse hp)
  | finalize tb v =>
    obtain ⟨hp, S, o, c, hS, hc, rfl⟩ | ⟨hp, rfl⟩ := exec_finalize_next hx
    · exact ArchState.exec_finalize_of_ok (s := failClosed e s) hp hS hc
    · exact hfails (exec_of_misuse hp)
  | squeeze n =>
    obtain ⟨hp, o, c, hc, rfl⟩ | ⟨hp, rfl⟩ := exec_squeeze_next hx
    · exact ArchState.exec_squeeze_of_ok (s := failClosed e s) hp hc
    · exact hfails (exec_of_misuse hp)
  | permute => rw [exec_permute_next hx]; rfl

/-! ## The step (R64) -/

/-- The step on a transaction that fails closed: the failure, and one response to it. -/
theorem step_of_runCommand_failClosed {s : State} {cmd : Word} {p : List Byte} {rest : List HostMove} {e : ErrCode}
    (hin : s.inbox = .command cmd p :: rest)
    (hr : runCommand cmd p { s with inbox := rest } = .next (failClosed e { s with inbox := rest })) :
    ∃ t, step s = .next t ∧ { t with outbox := s.outbox } = afterFailure e.code.toNat { s with inbox := rest } ∧
      t.outbox = s.outbox ++ [.command (statusImage t) 0 []] := by
  rw [step_of_inbox_cons hin, takeMove, hr, ← failClosed_eq_afterFailure]
  exact ⟨_, rfl, rfl, rfl⟩

end Sys2Proof.Exceptions

/-- Settles O4, by `Exceptions.decode_eq_illegal_iff`; no command reports code 1. -/
theorem illegalExactly : Obligations.IllegalExactly :=
  fun _ _ => ⟨Exceptions.decode_eq_illegal_iff, fun _ _ hr => (Exceptions.lastErr_runCommand hr).1⟩

/-- Settles O5, by `Exceptions.decode_eq_length_iff`; no command reports code 5. -/
theorem lengthExactly : Obligations.LengthExactly :=
  fun _ _ => ⟨Exceptions.decode_eq_length_iff, fun _ _ hr => (Exceptions.lastErr_runCommand hr).2⟩

/-- Settles O40: the transaction is answered, Decode's two errors come first, and a command reports its own first cause
(`Exceptions.exec_reports`). -/
theorem firstCauseIsReported : Obligations.FirstCauseIsReported := by
  intro cmd p s hs
  obtain ⟨t, hr⟩ := ArchState.exists_next_runCommand hs cmd p
  obtain ⟨hone, hfive⟩ := Exceptions.lastErr_runCommand hr
  refine ⟨t, hr, fun hill => ?_, fun hlegal hlen => ?_, fun i hdec => ?_⟩
  · exact hone.mpr (Exceptions.decode_eq_illegal_iff.mpr hill)
  · exact hfive.mpr (Exceptions.decode_eq_length_iff.mpr ⟨hlegal, hlen⟩)
  · rw [runCommand_command s hdec] at hr
    exact Exceptions.exec_reports hr

/-- Settles O41: a transaction that does not complete with code 0 fails closed. -/
theorem failureChangesNothingElse : Obligations.FailureChangesNothingElse := by
  intro cmd p s t hr hne
  obtain ⟨hlast, -, -⟩ | ⟨e, rfl⟩ := ArchState.runCommand_next_completes_or_fails hr
  · exact absurd hlast hne
  · exact Exceptions.failClosed_eq_afterFailure e s

/-- Settles O42, by `Exceptions.exec_of_misuse` and `Exceptions.exec_reports`. -/
theorem misuseExactly : Obligations.MisuseExactly := by
  refine fun i s => ⟨fun h => Exceptions.exec_of_misuse h, fun t hx hcode => ?_⟩
  obtain ⟨hmisuse, -⟩ := Exceptions.cause_of_reports (Exceptions.exec_reports hx)
  exact hmisuse hcode

/-- Settles O43, by `Exceptions.exec_of_badConfig` and `Exceptions.exec_reports`. -/
theorem badConfigExactly : Obligations.BadConfigExactly := by
  refine fun i s => ⟨fun hbad hphase hxof => Exceptions.exec_of_badConfig hbad hphase hxof, fun t hx hcode => ?_⟩
  obtain ⟨-, -, hbad, -⟩ := Exceptions.cause_of_reports (Exceptions.exec_reports hx)
  exact hbad hcode

/-- Settles O46, by `Exceptions.exec_failClosed`. -/
theorem errorLeavesNextCommandAlone : Obligations.ErrorLeavesNextCommandAlone := by
  intro i e s t hx
  rw [Exceptions.errBit_eq]
  exact Exceptions.exec_failClosed e hx

/-- Settles O44: SET_OUTLEN alone asks for an XOF, and each row of R142 has its own DOM and its own XOF. -/
theorem setOutlenNeedsXof : Obligations.SetOutlenNeedsXof := by
  refine ⟨fun b s hphase hxof => ?_, fun i s t hx hcode => ?_, ?_⟩
  · exact Exceptions.exec_setOutlen_of_xof_eq_zero (setOutlenPhase_iff.mpr hphase) hxof
  · obtain ⟨-, hxof, -⟩ := Exceptions.cause_of_reports (Exceptions.exec_reports hx)
    cases i with
    | setOutlen b => exact ⟨b, rfl, hxof hcode⟩
    | _ => exact (hxof hcode).elim
  · rintro s ⟨-, ⟨hdom, -, -, hxof⟩ | ⟨hdom, -, -, hxof⟩, -⟩ <;> simp [hdom, hxof]

/-- Settles O55: both transactions fail closed, and the step answers the failure. -/
theorem stepReportsBadTransactions : Obligations.StepReportsBadTransactions :=
  fun _ _ _ _ hin =>
    ⟨fun hill => Exceptions.step_of_runCommand_failClosed hin
        (runCommand_illegal _ (Exceptions.decode_eq_illegal_iff.mpr hill)),
      fun hlegal hlen => Exceptions.step_of_runCommand_failClosed hin
        (runCommand_length _ (Exceptions.decode_eq_length_iff.mpr ⟨hlegal, hlen⟩))⟩
end

section
/-! PROOF. The statements of 70_reset_and_hazards.md: the step that takes a hardware reset (R250), and the step with no
pending move (R260, log entry 1). -/

open Sys2Proof
open Sys2Proof.Machine

namespace Sys2Proof.ResetAndHazards

/-- A step that takes a reset answers the reset state, with the host's other moves still pending. -/
theorem step_of_inbox_reset {s : State} {rest : List HostMove} (h : s.inbox = .reset :: rest) :
    step s = .next (hardwareReset { s with inbox := rest }) := by
  rw [step_of_inbox_cons h, takeMove]

theorem step_of_inbox_nil {s : State} (h : s.inbox = []) : step s = .next s := by
  simp only [step, serve, h]

end Sys2Proof.ResetAndHazards

/-- Settles O59, by `ResetAndHazards.step_of_inbox_reset`: each register of the answered state is that of
`State.reset`. -/
theorem hardwareResetRestoresResetState : Obligations.HardwareResetRestoresResetState := by
  intro s rest hin
  refine ⟨_, ResetAndHazards.step_of_inbox_reset hin, ?_⟩
  simp [State.reset]

/-- Settles O60, by `ResetAndHazards.step_of_inbox_nil`. -/
theorem idleEngineKeepsItsState : Obligations.IdleEngineKeepsItsState :=
  fun _ hin => ResetAndHazards.step_of_inbox_nil hin
end
